-- ==== Sys2Proof/Word.lean ====
section
/-! DEFINITION. The words of the block: bytes, 16-bit words, 12-bit addresses, register and key numbers
(spec/00_scope.md R7 to R10). -/

namespace Sys2Proof

/-- An 8-bit unsigned value: a general register, a timer, a byte of memory (R7, `REG_W`, `TIMER_W`). -/
abbrev Byte := BitVec 8

/-- A 16-bit unsigned value: an instruction word, `I`, `pc`, a stack entry (R7, `I_W`, `PC_W`). -/
abbrev Word := BitVec 16

/-- The 12-bit address field `nnn` (spec/30_encoding.md R70). -/
abbrev Addr12 := BitVec 12

/-- The number of a general register, 0..15 (R7, `NREG`). -/
abbrev Reg := Fin 16

/-- A logical key, 0x0..0xF (R7, `NKEYS`). -/
abbrev Key := Fin 16

/-- The row count `n` of `Dxyn`, 0..15 (spec/30_encoding.md R71). -/
abbrev Rows := Fin 16

/-- `zext_16(v)` for a byte: widening with zeros (R9). -/
def zextByte (b : Byte) : Word := b.setWidth 16

/-- `zext_16(nnn)` for the 12-bit address field (R9; spec/30_encoding.md R71). -/
def zextAddr (a : Addr12) : Word := a.setWidth 16

end Sys2Proof
end

