-- ==== Sys2Proof/Syntax.lean ====
section
/-! DEFINITION. The instructions: one constructor for each of the 34 rows of spec/opcode_table.json (spec/30_encoding.md R75).
The operand types carry the operands' ranges (R71): `x`, `y` are register numbers, `kk` an 8-bit immediate, `nnn` a 12-bit
address, `n` a row count 0..15. `8xy6` and `8xyE` keep their `y`, which is decoded and not used (R76). -/

namespace Sys2Proof

inductive Instr where
  | cls                                  -- 00E0
  | ret                                  -- 00EE
  | jp (nnn : Addr12)                    -- 1nnn
  | call (nnn : Addr12)                  -- 2nnn
  | seImm (x : Reg) (kk : Byte)          -- 3xkk
  | sneImm (x : Reg) (kk : Byte)         -- 4xkk
  | seReg (x y : Reg)                    -- 5xy0
  | ldImm (x : Reg) (kk : Byte)          -- 6xkk
  | addImm (x : Reg) (kk : Byte)         -- 7xkk
  | ldReg (x y : Reg)                    -- 8xy0
  | orReg (x y : Reg)                    -- 8xy1
  | andReg (x y : Reg)                   -- 8xy2
  | xorReg (x y : Reg)                   -- 8xy3
  | addReg (x y : Reg)                   -- 8xy4
  | subReg (x y : Reg)                   -- 8xy5
  | shr (x y : Reg)                      -- 8xy6
  | subnReg (x y : Reg)                  -- 8xy7
  | shl (x y : Reg)                      -- 8xyE
  | sneReg (x y : Reg)                   -- 9xy0
  | ldI (nnn : Addr12)                   -- Annn
  | jpV0 (nnn : Addr12)                  -- Bnnn
  | rnd (x : Reg) (kk : Byte)            -- Cxkk
  | drw (x y : Reg) (n : Rows)           -- Dxyn
  | skp (x : Reg)                        -- Ex9E
  | sknp (x : Reg)                       -- ExA1
  | ldVxDT (x : Reg)                     -- Fx07
  | ldVxK (x : Reg)                      -- Fx0A
  | ldDTVx (x : Reg)                     -- Fx15
  | ldSTVx (x : Reg)                     -- Fx18
  | addI (x : Reg)                       -- Fx1E
  | ldF (x : Reg)                        -- Fx29
  | ldB (x : Reg)                        -- Fx33
  | stRegs (x : Reg)                     -- Fx55
  | ldRegs (x : Reg)                     -- Fx65
  deriving DecidableEq, Repr

/-- The operations of R75 by name alone: what a line of a listing names before its operands (R81). -/
inductive Op where
  | cls | ret | jp | call | seImm | sneImm | seReg | ldImm | addImm | ldReg | orReg | andReg | xorReg | addReg | subReg
  | shr | subnReg | shl | sneReg | ldI | jpV0 | rnd | drw | skp | sknp | ldVxDT | ldVxK | ldDTVx | ldSTVx | addI | ldF
  | ldB | stRegs | ldRegs
  deriving DecidableEq, Repr

/-- The operation an instruction is an instance of. -/
def Instr.op : Instr → Op
  | .cls => .cls
  | .ret => .ret
  | .jp _ => .jp
  | .call _ => .call
  | .seImm _ _ => .seImm
  | .sneImm _ _ => .sneImm
  | .seReg _ _ => .seReg
  | .ldImm _ _ => .ldImm
  | .addImm _ _ => .addImm
  | .ldReg _ _ => .ldReg
  | .orReg _ _ => .orReg
  | .andReg _ _ => .andReg
  | .xorReg _ _ => .xorReg
  | .addReg _ _ => .addReg
  | .subReg _ _ => .subReg
  | .shr _ _ => .shr
  | .subnReg _ _ => .subnReg
  | .shl _ _ => .shl
  | .sneReg _ _ => .sneReg
  | .ldI _ => .ldI
  | .jpV0 _ => .jpV0
  | .rnd _ _ => .rnd
  | .drw _ _ _ => .drw
  | .skp _ => .skp
  | .sknp _ => .sknp
  | .ldVxDT _ => .ldVxDT
  | .ldVxK _ => .ldVxK
  | .ldDTVx _ => .ldDTVx
  | .ldSTVx _ => .ldSTVx
  | .addI _ => .addI
  | .ldF _ => .ldF
  | .ldB _ => .ldB
  | .stRegs _ => .stRegs
  | .ldRegs _ => .ldRegs

/-- A line of a listing (R81): an operation and its operands as numbers, in the order R75 writes them. A line is a term of
the source text, so its numbers may lie outside an operand's range: WellFormed.lean checks them. -/
structure Line where
  op : Op
  args : List Nat
  deriving DecidableEq, Repr

end Sys2Proof
end

