-- ==== Sys2Proof/WellFormed.lean ====
section
/-! DEFINITION. Well-formedness. The fields of `Instr` have exact types, so every `Instr` is well formed and
`Instr.wellFormed` says over which ranges (spec/30_encoding.md R71, R76: the decoder checks no operand field). What can
be ill formed is a line of a listing (R81), whose operands are plain numbers: `Line.wellFormed` checks how many there are
and that each lies in its range, and `Line.assemble` gives the instruction of a well-formed line. -/

namespace Sys2Proof

/-- The kinds of operand of R71. -/
inductive OperandKind where
  | reg    -- `x`, `y`
  | imm8   -- `kk`
  | addr12 -- `nnn`
  | rows   -- `n`
  deriving DecidableEq, Repr

/-- How many values an operand kind has (R71). -/
def OperandKind.bound : OperandKind → Nat
  | .reg => 16
  | .imm8 => 0x100
  | .addr12 => 0x1000
  | .rows => 16

/-- The operands a listing writes after each operation (R75, R81): `SHR Vx` and `SHL Vx` are written without `Vy`. -/
def Op.operands : Op → List OperandKind
  | .cls | .ret => []
  | .jp | .call | .ldI | .jpV0 => [.addr12]
  | .seImm | .sneImm | .ldImm | .addImm | .rnd => [.reg, .imm8]
  | .seReg | .sneReg | .ldReg | .orReg | .andReg | .xorReg | .addReg | .subReg | .subnReg => [.reg, .reg]
  | .shr | .shl => [.reg]
  | .drw => [.reg, .reg, .rows]
  | .skp | .sknp | .ldVxDT | .ldVxK | .ldDTVx | .ldSTVx | .addI | .ldF | .ldB | .stRegs | .ldRegs => [.reg]

/-- As many operands as kinds, each in its kind's range. -/
def operandsOk : List OperandKind → List Nat → Bool
  | [], [] => true
  | k :: ks, a :: as => decide (a < k.bound) && operandsOk ks as
  | _, _ => false

/-- A line is well formed: the right number of operands, each in range (R71, R81). -/
def Line.wellFormed (l : Line) : Bool := operandsOk l.op.operands l.args

/-- An instruction's operand fields as its word carries them, `y` of the shifts included. -/
def Instr.fields : Instr → List (OperandKind × Nat)
  | .cls | .ret => []
  | .jp nnn | .call nnn | .ldI nnn | .jpV0 nnn => [(.addr12, nnn.toNat)]
  | .seImm x kk | .sneImm x kk | .ldImm x kk | .addImm x kk | .rnd x kk => [(.reg, x.val), (.imm8, kk.toNat)]
  | .seReg x y | .sneReg x y | .ldReg x y | .orReg x y | .andReg x y | .xorReg x y | .addReg x y | .subReg x y
  | .shr x y | .subnReg x y | .shl x y => [(.reg, x.val), (.reg, y.val)]
  | .drw x y n => [(.reg, x.val), (.reg, y.val), (.rows, n.val)]
  | .skp x | .sknp x | .ldVxDT x | .ldVxK x | .ldDTVx x | .ldSTVx x | .addI x | .ldF x | .ldB x | .stRegs x
  | .ldRegs x => [(.reg, x.val)]

/-- Every operand field of the instruction lies in its range (R71). Laws/PerInstr.lean proves it of every instruction. -/
def Instr.wellFormed (i : Instr) : Bool := i.fields.all fun f => decide (f.2 < f.1.bound)

/-- The instruction an operation and operands in range stand for; the shifts get `y = 0` (R81). Operands are reduced to
their fields' widths, which changes nothing in a well-formed line. -/
def Op.instr : Op → List Nat → Option Instr
  | .cls, [] => some .cls
  | .ret, [] => some .ret
  | .jp, [a] => some (.jp (BitVec.ofNat 12 a))
  | .call, [a] => some (.call (BitVec.ofNat 12 a))
  | .seImm, [x, k] => some (.seImm (Fin.ofNat 16 x) (BitVec.ofNat 8 k))
  | .sneImm, [x, k] => some (.sneImm (Fin.ofNat 16 x) (BitVec.ofNat 8 k))
  | .seReg, [x, y] => some (.seReg (Fin.ofNat 16 x) (Fin.ofNat 16 y))
  | .ldImm, [x, k] => some (.ldImm (Fin.ofNat 16 x) (BitVec.ofNat 8 k))
  | .addImm, [x, k] => some (.addImm (Fin.ofNat 16 x) (BitVec.ofNat 8 k))
  | .ldReg, [x, y] => some (.ldReg (Fin.ofNat 16 x) (Fin.ofNat 16 y))
  | .orReg, [x, y] => some (.orReg (Fin.ofNat 16 x) (Fin.ofNat 16 y))
  | .andReg, [x, y] => some (.andReg (Fin.ofNat 16 x) (Fin.ofNat 16 y))
  | .xorReg, [x, y] => some (.xorReg (Fin.ofNat 16 x) (Fin.ofNat 16 y))
  | .addReg, [x, y] => some (.addReg (Fin.ofNat 16 x) (Fin.ofNat 16 y))
  | .subReg, [x, y] => some (.subReg (Fin.ofNat 16 x) (Fin.ofNat 16 y))
  | .shr, [x] => some (.shr (Fin.ofNat 16 x) 0)
  | .subnReg, [x, y] => some (.subnReg (Fin.ofNat 16 x) (Fin.ofNat 16 y))
  | .shl, [x] => some (.shl (Fin.ofNat 16 x) 0)
  | .sneReg, [x, y] => some (.sneReg (Fin.ofNat 16 x) (Fin.ofNat 16 y))
  | .ldI, [a] => some (.ldI (BitVec.ofNat 12 a))
  | .jpV0, [a] => some (.jpV0 (BitVec.ofNat 12 a))
  | .rnd, [x, k] => some (.rnd (Fin.ofNat 16 x) (BitVec.ofNat 8 k))
  | .drw, [x, y, n] => some (.drw (Fin.ofNat 16 x) (Fin.ofNat 16 y) (Fin.ofNat 16 n))
  | .skp, [x] => some (.skp (Fin.ofNat 16 x))
  | .sknp, [x] => some (.sknp (Fin.ofNat 16 x))
  | .ldVxDT, [x] => some (.ldVxDT (Fin.ofNat 16 x))
  | .ldVxK, [x] => some (.ldVxK (Fin.ofNat 16 x))
  | .ldDTVx, [x] => some (.ldDTVx (Fin.ofNat 16 x))
  | .ldSTVx, [x] => some (.ldSTVx (Fin.ofNat 16 x))
  | .addI, [x] => some (.addI (Fin.ofNat 16 x))
  | .ldF, [x] => some (.ldF (Fin.ofNat 16 x))
  | .ldB, [x] => some (.ldB (Fin.ofNat 16 x))
  | .stRegs, [x] => some (.stRegs (Fin.ofNat 16 x))
  | .ldRegs, [x] => some (.ldRegs (Fin.ofNat 16 x))
  | _, _ => none

/-- The instruction of a well-formed line, and nothing for an ill-formed one (R81). -/
def Line.assemble (l : Line) : Option Instr := if l.wellFormed then l.op.instr l.args else none

end Sys2Proof
end

