-- ==== Sys2Proof/Decode.lean ====
section
/-! DEFINITION. The encoding of spec/30_encoding.md: the fields of a word (R70), the nibble-tree decoder (R73 to R76), the
opcode table as rows of mask and match (spec/opcode_table.json), the encoder written from the same patterns, and the
host's `decodeTableWord`. Every word decodes to one instruction or is refused by name. -/

namespace Sys2Proof

/-! ## Fields of a word (R70) -/

/-- `h = op[15:12]`. -/
def opH (w : Word) : BitVec 4 := w.extractLsb' 12 4
/-- `op[11:8]`. -/
def opX (w : Word) : BitVec 4 := w.extractLsb' 8 4
/-- `op[7:4]`. -/
def opY (w : Word) : BitVec 4 := w.extractLsb' 4 4
/-- `op[3:0]`. -/
def opN (w : Word) : BitVec 4 := w.extractLsb' 0 4
/-- `kk = op[7:0]`. -/
def opKK (w : Word) : Byte := w.extractLsb' 0 8
/-- `nnn = op[11:0]`. -/
def opNNN (w : Word) : Addr12 := w.extractLsb' 0 12

/-- The number a nibble names: a register, or a row count (R71). -/
def nibbleNum (b : BitVec 4) : Fin 16 := b.toFin

/-- The nibble that names a number 0..15. -/
def numNibble (x : Fin 16) : BitVec 4 := BitVec.ofFin x

/-! ## The decoder -/

/-- What the decoder answers: an operation with its operands, or a refusal by name. -/
inductive Decoded where
  /-- One of the 34 operations of R75. -/
  | instr (i : Instr)
  /-- `Illegal`: the word matches no pattern (R74, R79). -/
  | illegal (w : Word)
  deriving DecidableEq, Repr

/-- Family 0: levels 2 and 3 on the low byte, level 4 on `op[11:8]` (R73, R75). -/
def decode0 (w : Word) : Decoded :=
  match opY w, opN w, opX w with
  | 0xE#4, 0x0#4, 0x0#4 => .instr .cls
  | 0xE#4, 0xE#4, 0x0#4 => .instr .ret
  | _, _, _ => .illegal w

/-- Family 8: level 2 on `op[3:0]` (R73, R75). -/
def decode8 (w : Word) : Decoded :=
  let x := nibbleNum (opX w)
  let y := nibbleNum (opY w)
  match opN w with
  | 0x0#4 => .instr (.ldReg x y)
  | 0x1#4 => .instr (.orReg x y)
  | 0x2#4 => .instr (.andReg x y)
  | 0x3#4 => .instr (.xorReg x y)
  | 0x4#4 => .instr (.addReg x y)
  | 0x5#4 => .instr (.subReg x y)
  | 0x6#4 => .instr (.shr x y)
  | 0x7#4 => .instr (.subnReg x y)
  | 0xE#4 => .instr (.shl x y)
  | _ => .illegal w

/-- Family E: levels 2 and 3 on the low byte (R73, R75). -/
def decodeE (w : Word) : Decoded :=
  let x := nibbleNum (opX w)
  match opY w, opN w with
  | 0x9#4, 0xE#4 => .instr (.skp x)
  | 0xA#4, 0x1#4 => .instr (.sknp x)
  | _, _ => .illegal w

/-- Family F: levels 2 and 3 on the low byte (R73, R75). -/
def decodeF (w : Word) : Decoded :=
  let x := nibbleNum (opX w)
  match opY w, opN w with
  | 0x0#4, 0x7#4 => .instr (.ldVxDT x)
  | 0x0#4, 0xA#4 => .instr (.ldVxK x)
  | 0x1#4, 0x5#4 => .instr (.ldDTVx x)
  | 0x1#4, 0x8#4 => .instr (.ldSTVx x)
  | 0x1#4, 0xE#4 => .instr (.addI x)
  | 0x2#4, 0x9#4 => .instr (.ldF x)
  | 0x3#4, 0x3#4 => .instr (.ldB x)
  | 0x5#4, 0x5#4 => .instr (.stRegs x)
  | 0x6#4, 0x5#4 => .instr (.ldRegs x)
  | _, _ => .illegal w

/-- `Decode(op)`: level 1 on the high nibble (R73). Total on words; it reads no state. -/
def decode (w : Word) : Decoded :=
  let x := nibbleNum (opX w)
  let y := nibbleNum (opY w)
  match opH w with
  | 0x0#4 => decode0 w
  | 0x1#4 => .instr (.jp (opNNN w))
  | 0x2#4 => .instr (.call (opNNN w))
  | 0x3#4 => .instr (.seImm x (opKK w))
  | 0x4#4 => .instr (.sneImm x (opKK w))
  | 0x5#4 => if opN w = 0x0#4 then .instr (.seReg x y) else .illegal w
  | 0x6#4 => .instr (.ldImm x (opKK w))
  | 0x7#4 => .instr (.addImm x (opKK w))
  | 0x8#4 => decode8 w
  | 0x9#4 => if opN w = 0x0#4 then .instr (.sneReg x y) else .illegal w
  | 0xA#4 => .instr (.ldI (opNNN w))
  | 0xB#4 => .instr (.jpV0 (opNNN w))
  | 0xC#4 => .instr (.rnd x (opKK w))
  | 0xD#4 => .instr (.drw x y (nibbleNum (opN w)))
  | 0xE#4 => decodeE w
  | _ => decodeF w

/-- The word of two bytes as a fetch joins them: big-endian, `hi ++ lo` (spec/20_memory.md R52). -/
def joinBytes (hi lo : Byte) : Word := hi ++ lo

/-- The byte at the lower address of a word (spec/20_memory.md R52). -/
def hiByte (w : Word) : Byte := w.extractLsb' 8 8
/-- The byte at the higher address of a word (spec/20_memory.md R52). -/
def loByte (w : Word) : Byte := w.extractLsb' 0 8

/-- Decoding at the front of a list of bytes: what the first two say, and the bytes after them (R72). None for fewer than
the two bytes of an instruction. -/
def decodeBytes : List Byte → Option (Decoded × List Byte)
  | hi :: lo :: rest => some (decode (joinBytes hi lo), rest)
  | _ => none

/-! ## The opcode table and the encoder -/

/-- A row of spec/opcode_table.json: its operation, and the mask and match of its fixed bits. -/
structure OpcodeRow where
  op : Op
  mask : Word
  pattern : Word
  deriving DecidableEq, Repr

/-- Families 0 to 7 of the table. -/
def opcodeRowsLow : List OpcodeRow :=
  [⟨.cls, 0xFFFF, 0x00E0⟩, ⟨.ret, 0xFFFF, 0x00EE⟩, ⟨.jp, 0xF000, 0x1000⟩, ⟨.call, 0xF000, 0x2000⟩,
   ⟨.seImm, 0xF000, 0x3000⟩, ⟨.sneImm, 0xF000, 0x4000⟩, ⟨.seReg, 0xF00F, 0x5000⟩, ⟨.ldImm, 0xF000, 0x6000⟩,
   ⟨.addImm, 0xF000, 0x7000⟩]

/-- Families 8 and 9. -/
def opcodeRowsMid : List OpcodeRow :=
  [⟨.ldReg, 0xF00F, 0x8000⟩, ⟨.orReg, 0xF00F, 0x8001⟩, ⟨.andReg, 0xF00F, 0x8002⟩, ⟨.xorReg, 0xF00F, 0x8003⟩,
   ⟨.addReg, 0xF00F, 0x8004⟩, ⟨.subReg, 0xF00F, 0x8005⟩, ⟨.shr, 0xF00F, 0x8006⟩, ⟨.subnReg, 0xF00F, 0x8007⟩,
   ⟨.shl, 0xF00F, 0x800E⟩, ⟨.sneReg, 0xF00F, 0x9000⟩]

/-- Families A to F. -/
def opcodeRowsHigh : List OpcodeRow :=
  [⟨.ldI, 0xF000, 0xA000⟩, ⟨.jpV0, 0xF000, 0xB000⟩, ⟨.rnd, 0xF000, 0xC000⟩, ⟨.drw, 0xF000, 0xD000⟩,
   ⟨.skp, 0xF0FF, 0xE09E⟩, ⟨.sknp, 0xF0FF, 0xE0A1⟩, ⟨.ldVxDT, 0xF0FF, 0xF007⟩, ⟨.ldVxK, 0xF0FF, 0xF00A⟩,
   ⟨.ldDTVx, 0xF0FF, 0xF015⟩, ⟨.ldSTVx, 0xF0FF, 0xF018⟩, ⟨.addI, 0xF0FF, 0xF01E⟩, ⟨.ldF, 0xF0FF, 0xF029⟩,
   ⟨.ldB, 0xF0FF, 0xF033⟩, ⟨.stRegs, 0xF0FF, 0xF055⟩, ⟨.ldRegs, 0xF0FF, 0xF065⟩]

/-- The opcode table of R75, as spec/opcode_table.json writes it. -/
def opcodeRows : List OpcodeRow := opcodeRowsLow ++ (opcodeRowsMid ++ opcodeRowsHigh)

/-- A word matches a row if every fixed bit of the row's pattern matches (R74). -/
def OpcodeRow.admits (r : OpcodeRow) (w : Word) : Bool := w &&& r.mask == r.pattern

/-- A word of a nibble and the 12-bit address field. -/
def wordNNN (h : BitVec 4) (nnn : Addr12) : Word := h ++ nnn

/-- A word of a nibble, a register field and the 8-bit field. -/
def wordXKK (h : BitVec 4) (x : Reg) (kk : Byte) : Word := h ++ (numNibble x ++ kk)

/-- A word of a nibble, two number fields and the low nibble. -/
def wordXYN (h : BitVec 4) (x y : Reg) (n : BitVec 4) : Word := h ++ (numNibble x ++ (numNibble y ++ n))

/-- The word of an instruction, from its pattern in R75. -/
def encode : Instr → Word
  | .cls => 0x00E0#16
  | .ret => 0x00EE#16
  | .jp nnn => wordNNN 0x1#4 nnn
  | .call nnn => wordNNN 0x2#4 nnn
  | .seImm x kk => wordXKK 0x3#4 x kk
  | .sneImm x kk => wordXKK 0x4#4 x kk
  | .seReg x y => wordXYN 0x5#4 x y 0x0#4
  | .ldImm x kk => wordXKK 0x6#4 x kk
  | .addImm x kk => wordXKK 0x7#4 x kk
  | .ldReg x y => wordXYN 0x8#4 x y 0x0#4
  | .orReg x y => wordXYN 0x8#4 x y 0x1#4
  | .andReg x y => wordXYN 0x8#4 x y 0x2#4
  | .xorReg x y => wordXYN 0x8#4 x y 0x3#4
  | .addReg x y => wordXYN 0x8#4 x y 0x4#4
  | .subReg x y => wordXYN 0x8#4 x y 0x5#4
  | .shr x y => wordXYN 0x8#4 x y 0x6#4
  | .subnReg x y => wordXYN 0x8#4 x y 0x7#4
  | .shl x y => wordXYN 0x8#4 x y 0xE#4
  | .sneReg x y => wordXYN 0x9#4 x y 0x0#4
  | .ldI nnn => wordNNN 0xA#4 nnn
  | .jpV0 nnn => wordNNN 0xB#4 nnn
  | .rnd x kk => wordXKK 0xC#4 x kk
  | .drw x y n => wordXYN 0xD#4 x y (numNibble n)
  | .skp x => wordXKK 0xE#4 x 0x9E#8
  | .sknp x => wordXKK 0xE#4 x 0xA1#8
  | .ldVxDT x => wordXKK 0xF#4 x 0x07#8
  | .ldVxK x => wordXKK 0xF#4 x 0x0A#8
  | .ldDTVx x => wordXKK 0xF#4 x 0x15#8
  | .ldSTVx x => wordXKK 0xF#4 x 0x18#8
  | .addI x => wordXKK 0xF#4 x 0x1E#8
  | .ldF x => wordXKK 0xF#4 x 0x29#8
  | .ldB x => wordXKK 0xF#4 x 0x33#8
  | .stRegs x => wordXKK 0xF#4 x 0x55#8
  | .ldRegs x => wordXKK 0xF#4 x 0x65#8

/-- The two bytes of an instruction, in the order memory holds them (R72; spec/20_memory.md R52). -/
def encodeBytes (i : Instr) : List Byte := [hiByte (encode i), loByte (encode i)]

/-- The word a raw bit number stands for: its low `nbits` bits, no more than the 16 an instruction has. -/
def tableWord (nbits w : Nat) : Word := BitVec.ofNat 16 (w % 2 ^ nbits)

/-- The instruction the decoder reads from a word of spec/opcode_table.json, laid out as two big-endian bytes. -/
def decodeTableWord (nbits w : Nat) : Option Instr :=
  match decodeBytes [hiByte (tableWord nbits w), loByte (tableWord nbits w)] with
  | some (.instr i, _) => some i
  | _ => none

end Sys2Proof
end

