-- ==== Sys2Proof/Config.lean ====
section
/-! DEFINITION. The parameters of the block (spec/00_scope.md R7) and the free values the spec leaves to
its host (the oracles of R13). -/

namespace Sys2Proof

/-- `MEM_SIZE`: addresses 0x000..0xFFF (R7). -/
abbrev Config.memSize : Nat := 0x1000

/-- `STACK_DEPTH` (R7). -/
abbrev Config.stackDepth : Nat := 16

/-- `FONT_SIZE`: 16 glyphs of 5 bytes (R7); `FONT_BASE` is address 0. -/
abbrev Config.fontSize : Nat := 80

/-- `PROG_BASE`: where the ROM is loaded and where execution begins (R7). -/
abbrev Config.progBase : Nat := 0x200

/-- `MAX_ROM`: 4096 − 0x200 bytes (R7). -/
abbrev Config.maxRom : Nat := 3584

/-- `DRAW_EDGE_POLICY` (R7): what becomes of sprite pixels beyond the 64×32 grid
(spec/42_display.md R174, R175, R176). -/
inductive EdgePolicy where
  | wrap
  | clip
  | reject
  deriving DecidableEq, Repr

/-- The oracle `RandomByte()` (R13; spec/41_alu.md R141): the byte the host's generator gives at its `n`-th draw.
A free value: no body, so no proof can know one (log 6). -/
opaque Config.randomByte : Nat → Byte

/-- The oracle `KEY_SELECT` (R7; spec/44_timer_input.md R236): which of several held keys the `n`-th query answers, as an
index the query reduces modulo the number of held keys. A free value: no body (log 7). -/
opaque Config.keyChoice : Nat → Nat

end Sys2Proof
end

