-- ==== Sys2Proof/Machine/Memory.lean ====
section
/-! DEFINITION. Memory (spec/20_memory.md R50 to R59): 4096 bytes held as a list of cells in one canonical form, with addresses
strictly rising and no cell equal to what an unlisted address reads as. -/

namespace Sys2Proof.Machine

/-- Memory as the cells that differ from `unlistedByte`. -/
abbrev Memory := List Host.Cell

/-- Glyphs 0 to 7 of the default font table of R58. -/
def fontLow : List Byte :=
  [0xF0, 0x90, 0x90, 0x90, 0xF0, 0x20, 0x60, 0x20, 0x20, 0x70, 0xF0, 0x10, 0xF0, 0x80, 0xF0, 0xF0, 0x10, 0xF0, 0x10, 0xF0,
   0x90, 0x90, 0xF0, 0x10, 0x10, 0xF0, 0x80, 0xF0, 0x10, 0xF0, 0xF0, 0x80, 0xF0, 0x90, 0xF0, 0xF0, 0x10, 0x20, 0x40, 0x40]

/-- Glyphs 8 to F of the default font table of R58. -/
def fontHigh : List Byte :=
  [0xF0, 0x90, 0xF0, 0x90, 0xF0, 0xF0, 0x90, 0xF0, 0x10, 0xF0, 0xF0, 0x90, 0xF0, 0x90, 0x90, 0xE0, 0x90, 0xE0, 0x90, 0xE0,
   0xF0, 0x80, 0x80, 0x80, 0xF0, 0xE0, 0x90, 0x90, 0x90, 0xE0, 0xF0, 0x80, 0xF0, 0x80, 0xF0, 0xF0, 0x80, 0xF0, 0x80, 0x80]

/-- The default of the parameter `FONT` (R58). PRESUMED: R58 itself marks the bytes as general knowledge (log 5). -/
def defaultFont : List Byte := fontLow ++ fontHigh

/-- What an address no cell lists reads as: the default font at 0x000..0x04F (R57), and 0x00 elsewhere.
DESIGN CHOICE: the 0x00 (log 3); `initialize` takes the parameter `INIT_MEMORY` itself. -/
def unlistedByte (a : Nat) : Byte := defaultFont.getD a 0x00

/-- One byte of memory. Its callers have checked the address (R51). -/
def Memory.read : Memory → Nat → Byte
  | [], a => unlistedByte a
  | (k, b) :: rest, a => if k = a then b else Memory.read rest a

/-- Storing a byte in the canonical list: a byte equal to the unlisted one is not listed. -/
def Memory.put : Memory → Nat → Byte → Memory
  | [], a, v => if v = unlistedByte a then [] else [(a, v)]
  | (k, b) :: rest, a, v =>
    if a < k then (if v = unlistedByte a then (k, b) :: rest else (a, v) :: (k, b) :: rest)
    else if a = k then (if v = unlistedByte a then rest else (a, v) :: rest)
    else (k, b) :: Memory.put rest a v

/-- `mem[a] <- v` for an address of the space (R50). There is no byte at any other address, and no caller names one: every
instruction checks its addresses first and faults (R51). -/
def Memory.write (m : Memory) (a : Nat) (v : Byte) : Memory := if a < Config.memSize then Memory.put m a v else m

/-- Bytes stored at ascending addresses from `a` (R54). -/
def Memory.writeBytes : Memory → Nat → List Byte → Memory
  | m, _, [] => m
  | m, a, b :: bs => Memory.writeBytes (Memory.write m a b) (a + 1) bs

/-- `n` bytes read at ascending addresses from `a` (R54). -/
def Memory.readBytes (m : Memory) (a : Nat) : Nat → List Byte
  | 0 => []
  | n + 1 => Memory.read m a :: Memory.readBytes m (a + 1) n

/-- Every cell lies above `lo`, the addresses rise strictly, and no cell holds what an unlisted address reads as. -/
def Memory.wfFrom : Nat → Memory → Bool
  | _, [] => true
  | lo, (k, b) :: rest =>
    decide (lo ≤ k) && (decide (k < Config.memSize) && (decide (b ≠ unlistedByte k) && Memory.wfFrom (k + 1) rest))

/-- The canonical form: equal memories are equal lists. -/
def Memory.wf (m : Memory) : Bool := Memory.wfFrom 0 m

end Sys2Proof.Machine
end

