-- ==== Sys2Proof/Machine/State.lean ====
section
/-! DEFINITION. The state of the block (spec/10_state.md R33), the faults of spec/60_exceptions.md R300, and the state right
after reset. -/

namespace Sys2Proof.Machine

/-- The kind of access an `AddressOverrun` records (R300). -/
inductive Access where
  | fetch
  | read
  | write
  deriving DecidableEq, Repr

/-- The stack operation a stack fault records (R300). -/
inductive StackOp where
  | push
  | pop
  deriving DecidableEq, Repr

/-- Why a ROM was not loaded (R300, R341). -/
inductive LoadFailure where
  | oversize
  | unreadable
  deriving DecidableEq, Repr

/-- The fault kinds of R300 with the information each records. Entering a fault is a NEXT state with
`run = Halted(K, info)` (R304), so `step` never ends in `Host.Outcome.fault`: the fault is read from `run` (log 2). -/
inductive Fault where
  /-- Code 1, raised by `step` on an illegal word (R78). Safe: the block halts, as the spec says. -/
  | decodeError (opcode : Word) (pc : Word)
  /-- Code 2, raised by `2nnn` with a full stack (R102). Safe. -/
  | stackOverflow (op : StackOp) (depth : Nat) (pc : Word)
  /-- Code 3, raised by `00EE` with an empty stack (R100). Safe. -/
  | stackUnderflow (op : StackOp) (depth : Nat) (pc : Word)
  /-- Code 4, raised by a fetch and by `Dxyn`, `Fx33`, `Fx55`, `Fx65` that reach above 0xFFF (R51, R77). Safe. -/
  | addressOverrun (access : Access) (address : Nat) (pc : Word)
  /-- Code 5, raised by `initialize` (R341). Safe. -/
  | romLoadFailure (reason : LoadFailure) (length : Nat)
  /-- Code 6, raised by `Dxyn` under the reject policy only (R176), which is not this hardware's. Safe. -/
  | drawReject (column : Byte) (row : Byte) (rows : Nat) (pc : Word)
  deriving DecidableEq, Repr

/-- Why the model gives no meaning. -/
inductive Refusal where
  /-- An instruction that has no meaning in the model, by its mnemonic. No arm of `exec` uses it: all 34 are modelled. Safe. -/
  | notModelled (mnemonic : String)
  /-- An operation other than `initialize` before the first successful `initialize` (R342), raised by `Block.perform`.
  Safe: the spec gives it no meaning. -/
  | notInitialised
  deriving DecidableEq, Repr

/-- The run state `run` (R31). -/
inductive RunState where
  | running
  | awaitingKey (x : Reg)
  | halted (f : Fault)
  deriving DecidableEq, Repr

/-- The display buffer (R28): 32 rows of 64 cells, cell `col` of a row being the row's bit `col` (R178). -/
abbrev Display := Vector (BitVec 64) 32

/-- Every piece of state R33 lists, and two counters of the model's own. -/
structure State where
  /-- `V[0]`..`V[15]` (R20, R21). -/
  v : Vector Byte 16
  /-- The address register `I` (R23). -/
  i : Word
  /-- The program counter (R24). -/
  pc : Word
  /-- The stack depth, 0..16 (R26). -/
  sp : Fin 17
  /-- The return addresses (R26). -/
  stack : Vector Word 16
  /-- The delay timer (R27). -/
  dt : Byte
  /-- The sound timer (R27). -/
  st : Byte
  /-- Memory (spec/20_memory.md R50). -/
  mem : Memory
  /-- The display buffer (R28). -/
  disp : Display
  /-- `held[k]` (R29). -/
  held : Vector Bool 16
  /-- The run state (R31). -/
  run : RunState
  /-- The model's own: random bytes drawn so far (log 6). -/
  rngDraws : Nat
  /-- The model's own: key choices drawn so far (log 7). -/
  keyDraws : Nat
  deriving DecidableEq, Repr

/-- The display with every cell 0 (spec/42_display.md R171). -/
def blankDisplay : Display := Vector.replicate 32 0#64

/-- The state after `initialize` with an empty ROM (R33, R340, R341), with `INIT_MEMORY` all 0x00 and `INIT_DISPLAY` all 0
(DESIGN CHOICE, logs 3 and 4), the default font (PRESUMED, log 5) and both counters 0 (DESIGN CHOICE, logs 6 and 7). -/
def State.reset : State where
  v := Vector.replicate 16 0#8
  i := 0#16
  pc := 0x200#16
  sp := 0
  stack := Vector.replicate 16 0#16
  dt := 0#8
  st := 0#8
  mem := []
  disp := blankDisplay
  held := Vector.replicate 16 false
  run := .running
  rngDraws := 0
  keyDraws := 0

end Sys2Proof.Machine
end

