-- ==== Sys2Proof/Machine/Ops.lean ====
section
/-! DEFINITION. The named operations over registers, memory, stack, display and oracles that the meanings share, and the one
operation that takes a fault (spec/60_exceptions.md R304). -/

namespace Sys2Proof.Machine

/-- The answer of a meaning. -/
abbrev Answer := Host.Outcome State Fault Refusal

/-! ## Registers -/

/-- The flag register `VF`, a live name of `V[15]` (spec/10_state.md R21, R22). -/
def regF : Reg := 15

/-- `V[r]` (R20). -/
def State.getV (s : State) (r : Reg) : Byte := s.v.get r

/-- `V[r] <- b` (R20). -/
def State.setV (s : State) (r : Reg) (b : Byte) : State := { s with v := s.v.set r.val b r.isLt }

/-- `I <- w` (R23). -/
def State.setI (s : State) (w : Word) : State := { s with i := w }

/-- `pc <- w` (R24). -/
def State.setPc (s : State) (w : Word) : State := { s with pc := w }

/-- `DT <- b` (R27). -/
def State.setDT (s : State) (b : Byte) : State := { s with dt := b }

/-- `ST <- b` (R27). -/
def State.setST (s : State) (b : Byte) : State := { s with st := b }

/-- `run <- r` (R31). -/
def State.setRun (s : State) (r : RunState) : State := { s with run := r }

/-- `VF` written first and `V[x]` second, both values computed before either write (spec/41_alu.md R143). -/
def State.setFlagAndV (s : State) (flag : Byte) (x : Reg) (b : Byte) : State := (s.setV regF flag).setV x b

/-! ## The program counter -/

/-- The pre-advance of the step cycle: `pc <- (a + 2) mod 2^16` (spec/30_encoding.md R77). -/
def State.advance (s : State) : State := s.setPc (s.pc + 2)

/-- The address `a` of the instruction that is executing: `pc` holds `a + 2` (R77). -/
def State.instrAddr (s : State) : Word := s.pc - 2

/-- `Skip` (spec/00_scope.md R15). -/
def State.skip (s : State) : State := s.setPc (s.pc + 2)

/-- `if c: Skip` (R103 to R106, R238, R239). -/
def State.skipIf (s : State) (c : Bool) : State := if c then s.skip else s

/-! ## Taking a fault -/

/-- Fault entry (spec/60_exceptions.md R304): `pc` holds `a`, `run` becomes `Halted(K, info)`, nothing else changes. -/
def State.haltAt (s : State) (a : Word) (f : Fault) : State := { s with pc := a, run := .halted f }

/-- `raise K(info)` in an operation whose instruction stands at address `a` (spec/00_scope.md R12; spec/60_exceptions.md
R304): nothing the operation did stands, `pc` holds `a`, and `run` becomes `Halted(K, info)`. Every meaning makes its checks
on the state before its first write (spec/20_memory.md R51), so `s` has only the pre-advance to undo.
There is no return from a fault but `initialize` (R305), which stands in HostOps.lean. -/
def takeFault (a : Word) (f : Fault) (s : State) : Answer := .next (s.haltAt a f)

/-! ## Memory -/

/-- The byte at an address in range. -/
def State.byteAt (s : State) (a : Nat) : Byte := s.mem.read a

/-- Bytes read at ascending addresses from `a`. -/
def State.bytesAt (s : State) (a n : Nat) : List Byte := s.mem.readBytes a n

/-- Bytes stored at ascending addresses from `a`. -/
def State.storeBytes (s : State) (a : Nat) (bs : List Byte) : State := { s with mem := s.mem.writeBytes a bs }

/-- `n` one-byte accesses at `base, base + 1, …` all lie within 0x000..0xFFF; addresses do not wrap (R51, R54). -/
def accessible (base n : Nat) : Bool := n == 0 || decide (base + n - 1 ≤ 0xFFF)

/-- The fault of `n` accesses from `base` that are not all within memory: `address` is the lowest address above 0xFFF the
instruction would touch (R51; R300). -/
def overrun (access : Access) (base : Nat) (a : Word) : Fault := .addressOverrun access (max base 0x1000) a

/-- All of an instruction's accesses are checked before it changes any state (R51). -/
def withAccess (access : Access) (base n : Nat) (s : State) (go : Answer) : Answer :=
  if accessible base n then go else takeFault s.instrAddr (overrun access base s.instrAddr) s

/-- The two-byte word at an address, big-endian (R52). -/
def State.wordAt (s : State) (a : Nat) : Word := joinBytes (s.byteAt a) (s.byteAt (a + 1))

/-- `V[0]`..`V[x]`, ascending and inclusive (spec/43_index_memory.md R204). -/
def State.regsUpTo (s : State) (x : Reg) : List Byte := s.v.toList.take (x.val + 1)

/-- Registers loaded in ascending order from register `k` (R205). A list that runs past `V[15]` loads no register there;
R205 gives no such list. -/
def State.loadV (s : State) (k : Nat) : List Byte → State
  | [] => s
  | b :: bs => State.loadV (if h : k < 16 then s.setV ⟨k, h⟩ b else s) (k + 1) bs

/-! ## The call stack (spec/10_state.md R26) -/

/-- `Push(w)`, or none when `sp = 16`. -/
def State.push (s : State) (w : Word) : Option State :=
  if h : s.sp.val < 16 then some { s with stack := s.stack.set s.sp.val w h, sp := ⟨s.sp.val + 1, by omega⟩ } else none

/-- `Pop()` with the popped value, or none when `sp = 0`. -/
def State.pop (s : State) : Option (Word × State) :=
  if h : 0 < s.sp.val then
    some (s.stack.get ⟨s.sp.val - 1, by omega⟩, { s with sp := ⟨s.sp.val - 1, by omega⟩ })
  else none

/-! ## The oracles (spec/00_scope.md R13) -/

/-- `RandomByte()`: one draw (spec/41_alu.md R141). -/
def State.drawByte (s : State) : Byte × State := (Config.randomByte s.rngDraws, { s with rngDraws := s.rngDraws + 1 })

/-- The keys held, ascending (R29). -/
def State.heldKeys (s : State) : List Key := (List.finRange 16).filter fun k => s.held.get k

/-- The current key among the held keys `k :: ks`, where the choice `c` decides between several. -/
def chooseKey (k : Key) (ks : List Key) (c : Nat) : Key :=
  match ks with
  | [] => k
  | _ => (k :: ks).getD (c % (ks.length + 1)) k

/-- `CurrentKey()` (spec/44_timer_input.md R236): none when no key is held, else some held key, chosen by the oracle. -/
def State.currentKey (s : State) : Option Key × State :=
  match s.heldKeys with
  | [] => (none, s)
  | k :: ks => (some (chooseKey k ks (Config.keyChoice s.keyDraws)), { s with keyDraws := s.keyDraws + 1 })

/-- The byte of a key code (R240). -/
def keyByte (k : Key) : Byte := BitVec.ofNat 8 k.val

/-! ## The display -/

/-- `disp[col][row]` (R28). -/
def Display.cell (d : Display) (col : Fin 64) (row : Fin 32) : Bool := (d.get row).getLsbD col.val

/-- `disp[col][row] <- disp[col][row] XOR 1` (spec/42_display.md R172). -/
def Display.toggle (d : Display) (col : Fin 64) (row : Fin 32) : Display :=
  d.set row.val (d.get row ^^^ (1#64 <<< col.val)) row.isLt

/-- `disp[col][row]` of a state. -/
def State.pixel (s : State) (col : Fin 64) (row : Fin 32) : Bool := Display.cell s.disp col row

/-! ## Faults as the host sees them -/

/-- The numeric code of a fault kind (spec/60_exceptions.md R300). -/
def Fault.code : Fault → Nat
  | .decodeError _ _ => 1
  | .stackOverflow _ _ _ => 2
  | .stackUnderflow _ _ _ => 3
  | .addressOverrun _ _ _ => 4
  | .romLoadFailure _ _ => 5
  | .drawReject _ _ _ _ => 6

/-- The address of the faulting instruction, which every execution fault records (R300). -/
def Fault.pc? : Fault → Option Word
  | .decodeError _ a => some a
  | .stackOverflow _ _ a => some a
  | .stackUnderflow _ _ a => some a
  | .addressOverrun _ _ a => some a
  | .romLoadFailure _ _ => none
  | .drawReject _ _ _ a => some a

end Sys2Proof.Machine
end

