-- ==== Sys2Proof/Machine/Operands.lean ====
section
/-! DEFINITION. The operand forms and the values the instructions compute from them (spec/30_encoding.md R71;
spec/41_alu.md R142: 8-bit unsigned, modulo 256). -/

namespace Sys2Proof.Machine

/-- `(a + b) mod 2^8` (R131, R136). -/
def addByte (a b : Byte) : Byte := a + b

/-- `(a - b) mod 2^8` (R137, R139). -/
def subByte (a b : Byte) : Byte := a - b

/-- `v >> 1`, bit 7 becoming 0 (R138). -/
def shiftRight1 (v : Byte) : Byte := v >>> 1

/-- `(v << 1) mod 2^8`, bit 0 becoming 0 (R140). -/
def shiftLeft1 (v : Byte) : Byte := v <<< 1

/-- The target of `Bnnn`: `(zext_16(nnn) + V[0]) mod 2^16` (spec/40_control.md R107). -/
def jumpTarget (nnn : Addr12) (v0 : Byte) : Word := zextAddr nnn + zextByte v0

/-- `(I + zext_16(V[x])) mod 2^16` (spec/43_index_memory.md R201). -/
def indexSum (i : Word) (v : Byte) : Word := i + zextByte v

/-- `zext_16(V[x]) * 5`: the whole of `V[x]`, not its low nibble (R202). -/
def glyphAddr (v : Byte) : Word := zextByte v * 5

/-- The hundreds, tens and ones of a byte (R203). -/
def decimalDigits (v : Byte) : List Byte :=
  [BitVec.ofNat 8 (v.toNat / 100), BitVec.ofNat 8 (v.toNat / 10 % 10), BitVec.ofNat 8 (v.toNat % 10)]

/-- `k = some V[x]`: the current key is the code the register holds (spec/44_timer_input.md R238, R239). -/
def keyIs (k : Option Key) (v : Byte) : Bool :=
  match k with
  | none => false
  | some key => keyByte key == v

end Sys2Proof.Machine
end

