-- ==== Sys2Proof/Machine/Flags.lean ====
section
/-! DEFINITION. The values of the one flag, `VF` (spec/10_state.md R25; spec/41_alu.md R136 to R140; spec/42_display.md R173). -/

namespace Sys2Proof.Machine

/-- A comparison yields 1 for true and 0 for false (spec/00_scope.md R9). -/
def flagByte (c : Bool) : Byte := if c then 1#8 else 0#8

/-- Carry out of bit 7: the exact sum is above 255 (R136). -/
def carryFlag (a b : Byte) : Byte := flagByte (decide (a.toNat + b.toNat > 255))

/-- NOT borrow of `a - b`: 1 if `a >= b` (R137, R139). -/
def notBorrowFlag (a b : Byte) : Byte := flagByte (decide (a.toNat ≥ b.toNat))

/-- The bit a right shift puts out: `v[0]` (R138). -/
def shiftRightFlag (v : Byte) : Byte := flagByte (v.getLsbD 0)

/-- The bit a left shift puts out: `v[7]` (R140). -/
def shiftLeftFlag (v : Byte) : Byte := flagByte (v.getLsbD 7)

/-- The collision flag of a draw (spec/42_display.md R173). -/
def collisionFlag (hit : Bool) : Byte := flagByte hit

end Sys2Proof.Machine
end

