-- ==== Sys2Proof/Machine/Alu.lean ====
section
/-! DEFINITION. Register arithmetic and logic (spec/41_alu.md). Operands are read before any write, and `VF` is written before
`V[x]` (R143). -/

namespace Sys2Proof.Machine

/-- `6xkk` LD Vx, kk (R130). -/
def execLdImm (x : Reg) (kk : Byte) (s : State) : Answer := .next (s.setV x kk)

/-- `7xkk` ADD Vx, kk (R131): no carry flag. -/
def execAddImm (x : Reg) (kk : Byte) (s : State) : Answer := .next (s.setV x (addByte (s.getV x) kk))

/-- `8xy0` LD Vx, Vy (R132). -/
def execLdReg (x y : Reg) (s : State) : Answer := .next (s.setV x (s.getV y))

/-- `8xy1` OR Vx, Vy (R133): `VF` is not reset (R144). -/
def execOrReg (x y : Reg) (s : State) : Answer := .next (s.setV x (s.getV x ||| s.getV y))

/-- `8xy2` AND Vx, Vy (R134). -/
def execAndReg (x y : Reg) (s : State) : Answer := .next (s.setV x (s.getV x &&& s.getV y))

/-- `8xy3` XOR Vx, Vy (R135). -/
def execXorReg (x y : Reg) (s : State) : Answer := .next (s.setV x (s.getV x ^^^ s.getV y))

/-- `8xy4` ADD Vx, Vy (R136). -/
def execAddReg (x y : Reg) (s : State) : Answer :=
  .next (s.setFlagAndV (carryFlag (s.getV x) (s.getV y)) x (addByte (s.getV x) (s.getV y)))

/-- `8xy5` SUB Vx, Vy (R137). -/
def execSubReg (x y : Reg) (s : State) : Answer :=
  .next (s.setFlagAndV (notBorrowFlag (s.getV x) (s.getV y)) x (subByte (s.getV x) (s.getV y)))

/-- `8xy6` SHR Vx (R138): `y` is not used. -/
def execShr (x _y : Reg) (s : State) : Answer :=
  .next (s.setFlagAndV (shiftRightFlag (s.getV x)) x (shiftRight1 (s.getV x)))

/-- `8xy7` SUBN Vx, Vy (R139). -/
def execSubnReg (x y : Reg) (s : State) : Answer :=
  .next (s.setFlagAndV (notBorrowFlag (s.getV y) (s.getV x)) x (subByte (s.getV y) (s.getV x)))

/-- `8xyE` SHL Vx (R140): `y` is not used. -/
def execShl (x _y : Reg) (s : State) : Answer :=
  .next (s.setFlagAndV (shiftLeftFlag (s.getV x)) x (shiftLeft1 (s.getV x)))

/-- `Cxkk` RND Vx, kk (R141): one draw, taken whatever the mask. -/
def execRnd (x : Reg) (kk : Byte) (s : State) : Answer := .next (s.drawByte.2.setV x (s.drawByte.1 &&& kk))

end Sys2Proof.Machine
end

