-- ==== Sys2Proof/Machine/Compositor.lean ====
section
/-! DEFINITION. The XOR-sprite compositor (spec/42_display.md): `00E0`, and `Dxyn` under each of the three edge policies. -/

namespace Sys2Proof.Machine

/-- `DRAW_EDGE_POLICY` of this hardware: wrap (R174; spec/00_scope.md R7), the spec's own choice (log 8). -/
def drawEdgePolicy : EdgePolicy := .wrap

/-- `Place` (R174, R175, R176): the cell of an unreduced coordinate pair, or none for a pixel that is not drawn. Under
reject every pixel is in range once `rejects` has passed. -/
def place (policy : EdgePolicy) (px py : Nat) : Option (Fin 64 × Fin 32) :=
  match policy with
  | .wrap => some (Fin.ofNat 64 px, Fin.ofNat 32 py)
  | .clip | .reject => if h : px < 64 ∧ py < 32 then some (⟨px, h.1⟩, ⟨py, h.2⟩) else none

/-- A draw in progress: the buffer, and whether a cell has gone from 1 to 0. -/
structure Canvas where
  disp : Display
  hit : Bool
  deriving DecidableEq, Repr

/-- One sprite bit of 1 reaching its cell (R172). -/
def Canvas.plot (c : Canvas) (target : Option (Fin 64 × Fin 32)) : Canvas :=
  match target with
  | none => c
  | some (col, row) => ⟨Display.toggle c.disp col row, c.hit || Display.cell c.disp col row⟩

/-- The columns from `c` on of one sprite row `bits`, most-significant bit first (R170, R172). -/
def drawColumns (policy : EdgePolicy) (cx py : Nat) (bits : Byte) : List Nat → Canvas → Canvas
  | [], canvas => canvas
  | c :: cs, canvas =>
    drawColumns policy cx py bits cs (if bits.getLsbD (7 - c) then canvas.plot (place policy (cx + c) py) else canvas)

/-- The sprite rows `bytes`, the first of them at row `py` (R172). -/
def drawRows (policy : EdgePolicy) (cx : Nat) : Nat → List Byte → Canvas → Canvas
  | _, [], canvas => canvas
  | py, b :: bs, canvas => drawRows policy cx (py + 1) bs (drawColumns policy cx py b [0, 1, 2, 3, 4, 5, 6, 7] canvas)

/-- The per-pixel loop of R172, from an empty hit. -/
def drawSprite (policy : EdgePolicy) (d : Display) (cx cy : Nat) (sprite : List Byte) : Canvas :=
  drawRows policy cx cy sprite ⟨d, false⟩

/-- `RejectCheck` fails: the 8-by-`n` box reaches outside the grid (R176). -/
def rejects (policy : EdgePolicy) (cx cy n : Nat) : Bool :=
  policy == .reject && (n != 0 && (decide (cx + 7 > 63) || decide (cy + n - 1 > 31)))

/-- The display after a draw. -/
def State.setDisp (s : State) (d : Display) : State := { s with disp := d }

/-- `Dxyn` under a policy (R172): the overrun check, then the reject check, then the draw, then `VF`. -/
def drawWith (policy : EdgePolicy) (x y : Reg) (n : Rows) (s : State) : Answer :=
  withAccess .read s.i.toNat n.val s <|
    if rejects policy (s.getV x).toNat (s.getV y).toNat n.val then
      takeFault s.instrAddr (.drawReject (s.getV x) (s.getV y) n.val s.instrAddr) s
    else
      let c := drawSprite policy s.disp (s.getV x).toNat (s.getV y).toNat (s.bytesAt s.i.toNat n.val)
      .next ((s.setDisp c.disp).setV regF (collisionFlag c.hit))

/-- `00E0` CLS (R171). -/
def execCls (s : State) : Answer := .next (s.setDisp blankDisplay)

/-- `Dxyn` DRW Vx, Vy, n (R172), with this hardware's edge policy. -/
def execDrw (x y : Reg) (n : Rows) (s : State) : Answer := drawWith drawEdgePolicy x y n s

/-! ## The same compositor as a datapath (R178) -/

/-- The row mask `m_r`: bit `col` is the sprite bit of the column that lands on `col`, 0 where none does. -/
def rowMask (policy : EdgePolicy) (cx py : Nat) (bits : Byte) : List Nat → BitVec 64
  | [] => 0#64
  | c :: cs =>
    let rest := rowMask policy cx py bits cs
    match place policy (cx + c) py with
    | none => rest
    | some (col, _) => if bits.getLsbD (7 - c) then rest ||| (1#64 <<< col.val) else rest

/-- The row of the display sprite row `py` lands on, if its pixels are drawn at all. -/
def rowTarget (policy : EdgePolicy) (py : Nat) : Option (Fin 32) :=
  match policy with
  | .wrap => some (Fin.ofNat 32 py)
  | .clip | .reject => if h : py < 32 then some ⟨py, h⟩ else none

/-- `new_row = old_row XOR m_r` and `hit_r = ((old_row AND m_r) != 0)`, row by row. -/
def compositeRows (policy : EdgePolicy) (cx : Nat) : Nat → List Byte → Canvas → Canvas
  | _, [], canvas => canvas
  | py, b :: bs, canvas =>
    let m := rowMask policy cx py b [0, 1, 2, 3, 4, 5, 6, 7]
    compositeRows policy cx (py + 1) bs <|
      match rowTarget policy py with
      | none => canvas
      | some row => ⟨canvas.disp.set row.val (canvas.disp.get row ^^^ m) row.isLt, canvas.hit || (canvas.disp.get row &&& m) != 0#64⟩

/-- The compositor of R178, from an empty hit. -/
def compositeSprite (policy : EdgePolicy) (d : Display) (cx cy : Nat) (sprite : List Byte) : Canvas :=
  compositeRows policy cx cy sprite ⟨d, false⟩

end Sys2Proof.Machine
end

