-- ==== Sys2Proof/Machine/Control.lean ====
section
/-! DEFINITION. Control transfer and skips (spec/40_control.md). `pc` already holds the instruction's address plus 2. -/

namespace Sys2Proof.Machine

/-- `00EE` RET (R100). -/
def execRet (s : State) : Answer :=
  match s.pop with
  | none => takeFault s.instrAddr (.stackUnderflow .pop 0 s.instrAddr) s
  | some (target, t) => .next (t.setPc target)

/-- `1nnn` JP (R101). -/
def execJp (nnn : Addr12) (s : State) : Answer := .next (s.setPc (zextAddr nnn))

/-- `2nnn` CALL (R102): the pushed value is the advanced `pc`. -/
def execCall (nnn : Addr12) (s : State) : Answer :=
  match s.push s.pc with
  | none => takeFault s.instrAddr (.stackOverflow .push 16 s.instrAddr) s
  | some t => .next (t.setPc (zextAddr nnn))

/-- `3xkk` SE Vx, kk (R103). -/
def execSeImm (x : Reg) (kk : Byte) (s : State) : Answer := .next (s.skipIf (s.getV x == kk))

/-- `4xkk` SNE Vx, kk (R104). -/
def execSneImm (x : Reg) (kk : Byte) (s : State) : Answer := .next (s.skipIf (s.getV x != kk))

/-- `5xy0` SE Vx, Vy (R105). -/
def execSeReg (x y : Reg) (s : State) : Answer := .next (s.skipIf (s.getV x == s.getV y))

/-- `9xy0` SNE Vx, Vy (R106). -/
def execSneReg (x y : Reg) (s : State) : Answer := .next (s.skipIf (s.getV x != s.getV y))

/-- `Bnnn` JP V0, nnn (R107): the register is always `V[0]`. -/
def execJpV0 (nnn : Addr12) (s : State) : Answer := .next (s.setPc (jumpTarget nnn (s.getV 0)))

end Sys2Proof.Machine
end

