-- ==== Sys2Proof/Machine/IndexMemory.lean ====
section
/-! DEFINITION. The index register and memory transfers (spec/43_index_memory.md). -/

namespace Sys2Proof.Machine

/-- `Annn` LD I, nnn (R200). -/
def execLdI (nnn : Addr12) (s : State) : Answer := .next (s.setI (zextAddr nnn))

/-- `Fx1E` ADD I, Vx (R201): no check, no flag. -/
def execAddI (x : Reg) (s : State) : Answer := .next (s.setI (indexSum s.i (s.getV x)))

/-- `Fx29` LD F, Vx (R202). -/
def execLdF (x : Reg) (s : State) : Answer := .next (s.setI (glyphAddr (s.getV x)))

/-- `Fx33` LD B, Vx (R203). -/
def execLdB (x : Reg) (s : State) : Answer :=
  withAccess .write s.i.toNat 3 s (.next (s.storeBytes s.i.toNat (decimalDigits (s.getV x))))

/-- `Fx55` LD [I], Vx (R204): `V[0]` to `V[x]` inclusive; `I` is unchanged. -/
def execStRegs (x : Reg) (s : State) : Answer :=
  withAccess .write s.i.toNat (x.val + 1) s (.next (s.storeBytes s.i.toNat (s.regsUpTo x)))

/-- `Fx65` LD Vx, [I] (R205): `V[0]` to `V[x]` inclusive; `I` is unchanged. -/
def execLdRegs (x : Reg) (s : State) : Answer :=
  withAccess .read s.i.toNat (x.val + 1) s (.next (s.loadV 0 (s.bytesAt s.i.toNat (x.val + 1))))

end Sys2Proof.Machine
end

