-- ==== Sys2Proof/Machine/TimerInput.lean ====
section
/-! DEFINITION. Timer and key instructions (spec/44_timer_input.md). -/

namespace Sys2Proof.Machine

/-- `Fx07` LD Vx, DT (R232). -/
def execLdVxDT (x : Reg) (s : State) : Answer := .next (s.setV x s.dt)

/-- `Fx15` LD DT, Vx (R233). -/
def execLdDTVx (x : Reg) (s : State) : Answer := .next (s.setDT (s.getV x))

/-- `Fx18` LD ST, Vx (R234). -/
def execLdSTVx (x : Reg) (s : State) : Answer := .next (s.setST (s.getV x))

/-- `Ex9E` SKP Vx (R238). -/
def execSkp (x : Reg) (s : State) : Answer := .next (s.currentKey.2.skipIf (keyIs s.currentKey.1 (s.getV x)))

/-- `ExA1` SKNP Vx (R239): no key held counts as different. -/
def execSknp (x : Reg) (s : State) : Answer := .next (s.currentKey.2.skipIf (!keyIs s.currentKey.1 (s.getV x)))

/-- `Fx0A` LD Vx, K (R240): a held key completes it at once, else the block awaits one; `pc` stays `a + 2`. -/
def execLdVxK (x : Reg) (s : State) : Answer :=
  match s.currentKey with
  | (some k, t) => .next (t.setV x (keyByte k))
  | (none, t) => .next (t.setRun (.awaitingKey x))

/-- `step()` while awaiting a key (R241): it fetches nothing; a held key goes to `V[x]` and the block runs again. -/
def pollKey (x : Reg) (s : State) : Answer :=
  match s.currentKey with
  | (some k, t) => .next ((t.setV x (keyByte k)).setRun .running)
  | (none, t) => .next t

end Sys2Proof.Machine
end

