-- ==== Sys2Proof/Machine/Cycle.lean ====
section
/-! DEFINITION. The step cycle of spec/30_encoding.md R77: fetch, decode, pre-advance, execute. -/

namespace Sys2Proof.Machine

/-- The fetch bound and the fetch of R77: the big-endian word at `pc`, or the fault of a `pc` above 0xFFE. -/
def fetch (s : State) : Except Fault Word :=
  let a := s.pc.toNat
  if a + 1 > 0xFFF then .error (.addressOverrun .fetch (if a = 0xFFF then a + 1 else a) s.pc) else .ok (s.wordAt a)

/-- One `step()` with `run = Running` (R77, R78), the checks in the order of spec/60_exceptions.md R303. -/
def runCycle (s : State) : Answer :=
  match fetch s with
  | .error f => takeFault s.pc f s
  | .ok op =>
    match decode op with
    | .instr i => exec i s.advance
    | .illegal w => takeFault s.pc (.decodeError w s.pc) s

/-- `step()` in each run state: R77, R241 of spec/44_timer_input.md, R305 of spec/60_exceptions.md (a halted block executes
nothing and changes nothing). -/
def stepIn (r : RunState) (s : State) : Answer :=
  match r with
  | .running => runCycle s
  | .awaitingKey x => pollKey x s
  | .halted _ => .next s

/-- A two-byte instruction stored at `pc` in a running block. Where `pc` is above 0xFFE, no fetch could read there, and the
program base 0x200 takes its place. -/
def placeWord (s : State) (w : Word) : State :=
  let a : Word := if s.pc.toNat + 1 > 0xFFF then 0x200#16 else s.pc
  ({ s with pc := a, run := .running } : State).storeBytes a.toNat [hiByte w, loByte w]

end Sys2Proof.Machine
end

