-- ==== Sys2Proof/Machine/Step.lean ====
section
/-! DEFINITION. One `step()` of the block, and the host's placing of one instruction. -/

namespace Sys2Proof.Machine

/-- `step()` (spec/30_encoding.md R77; spec/44_timer_input.md R241; spec/60_exceptions.md R305). -/
def step (s : State) : Host.Outcome State Fault Refusal := stepIn s.run s

/-- `s` with an instruction of spec/opcode_table.json stored where `step` fetches next, and running (log 10). -/
def State.withFetchWord (s : State) (nbits w : Nat) : State := placeWord s (tableWord nbits w)

end Sys2Proof.Machine
end

