-- ==== Sys2Proof/Machine/HostOps.lean ====
section
/-! DEFINITION. The host operations beside `step` and the host's reads (spec/70_reset_and_hazards.md R340, R341, R344;
spec/44_timer_input.md R230, R231, R237; spec/42_display.md R179). -/

namespace Sys2Proof.Machine

/-! ## tick -/

/-- One timer at a tick: down by one, and never below 0 (R230). -/
def tickTimer (t : Byte) : Byte := if t.toNat > 0 then t - 1 else t

/-- `tick()` (R230), in every run state. -/
def tick (s : State) : State := { s with dt := tickTimer s.dt, st := tickTimer s.st }

/-! ## set_key_state -/

/-- `set_key_state(k, p)` (R237), in every run state. -/
def setKeyState (k : Key) (p : Bool) (s : State) : State := { s with held := s.held.set k.val p k.isLt }

/-! ## initialize -/

/-- The OPEN parameters of `initialize`: `FONT`, `INIT_MEMORY`, `INIT_DISPLAY` (spec/00_scope.md R7). -/
structure InitParams where
  font : Vector Byte 80
  memory : Memory
  display : Display
  deriving DecidableEq, Repr

/-- The parameters behind `State.reset`: the default font (log 5), memory all 0x00 (log 3), a blank display (log 4). -/
def InitParams.default : InitParams where
  font := Vector.ofFn fun i => defaultFont.getD i.val 0x00
  memory := []
  display := blankDisplay

/-- What the host passes to `initialize`: the ROM's bytes, or the news that it could not read them (R341). -/
inductive RomImage where
  | bytes (l : List Byte)
  | unreadable (length : Nat)
  deriving DecidableEq, Repr

/-- Memory after `initialize`: the font, the ROM at 0x200, and `INIT_MEMORY` elsewhere (R340; spec/20_memory.md R57). -/
def initMemory (p : InitParams) (rom : List Byte) : Memory :=
  Memory.writeBytes (Memory.writeBytes p.memory Config.progBase rom) 0 p.font.toList

/-- The state after a successful `initialize` (R340; spec/10_state.md R33). The two draw counters are the model's own and run
on, so that no draw after it repeats one before it (logs 6, 7). -/
def initialState (p : InitParams) (rom : List Byte) (rngDraws keyDraws : Nat) : State where
  v := Vector.replicate 16 0#8
  i := 0#16
  pc := 0x200#16
  sp := 0
  stack := Vector.replicate 16 0#16
  dt := 0#8
  st := 0#8
  mem := initMemory p rom
  disp := p.display
  held := Vector.replicate 16 false
  run := .running
  rngDraws := rngDraws
  keyDraws := keyDraws

/-- What keeps a ROM from being loaded (R341), if anything. -/
def loadFault (rom : RomImage) : Option Fault :=
  match rom with
  | .unreadable n => some (.romLoadFailure .unreadable n)
  | .bytes l => if l.length > Config.maxRom then some (.romLoadFailure .oversize l.length) else none

/-- The bytes of a ROM image; an unreadable one has none. -/
def RomImage.contents : RomImage → List Byte
  | .bytes l => l
  | .unreadable _ => []

/-- `initialize(rom)` (R340, R341), in every run state: on a load failure no byte is loaded, nothing else changes and the block
is halted (spec/60_exceptions.md R304). -/
def initialise (p : InitParams) (rom : RomImage) (s : State) : State :=
  match loadFault rom with
  | some f => s.haltAt s.pc f
  | none => initialState p rom.contents s.rngDraws s.keyDraws

/-! ## What the host gets back -/

/-- The status of an operation (spec/00_scope.md R6). -/
inductive Report where
  | ok
  | awaitingKey
  | fault (f : Fault)
  deriving DecidableEq, Repr

/-- What `step` and `initialize` report, read from the run state they leave (R240, R241; spec/60_exceptions.md R304, R305). -/
def State.report (s : State) : Report :=
  match s.run with
  | .running => .ok
  | .awaitingKey _ => .awaitingKey
  | .halted f => .fault f

/-- The host's read of the display buffer (spec/42_display.md R179). -/
def State.readDisplay (s : State) : Display := s.disp

/-- The host's read of the sound timer (R231). -/
def State.readSound (s : State) : Byte := s.st

/-- `sound_active = (ST != 0)` (R231). -/
def State.soundActive (s : State) : Bool := s.st != 0#8

end Sys2Proof.Machine
end

