-- ==== Sys2Proof/Machine/Block.lean ====
section
/-! DEFINITION. The block as its host drives it (spec/00_scope.md R6; spec/70_reset_and_hazards.md R342 to R344): one operation
at a time, in any order, with the case that no `initialize` has succeeded yet. -/

namespace Sys2Proof.Machine

/-- A host operation (R344). `initialise` carries the OPEN parameters that hold for that call. -/
inductive HostOp where
  | initialise (p : InitParams) (rom : RomImage)
  | tick
  | step
  | setKeyState (k : Key) (p : Bool)
  deriving DecidableEq, Repr

/-- The block: before the first successful `initialize` it has no state (R342), only the failure of the last attempt, if
there was one (R341). -/
inductive Block where
  | unloaded (failure : Option Fault)
  | live (s : State)
  deriving DecidableEq, Repr

/-- The answer of one host operation: the block after it and what the host gets back, which is nothing for `set_key_state`
(R344). -/
abbrev BlockAnswer := Host.Outcome (Block × Option Report) Fault Refusal

/-- `step()` of a block that has a state. -/
def performStep (s : State) : BlockAnswer :=
  match step s with
  | .next t => .next (.live t, some t.report)
  | .fault f => .fault f
  | .refused r => .refused r

/-- `initialize` of a block that has no state yet. -/
def performLoad (p : InitParams) (rom : RomImage) : BlockAnswer :=
  match loadFault rom with
  | some f => .next (.unloaded (some f), some (.fault f))
  | none => .next (.live (initialState p rom.contents 0 0), some .ok)

/-- One host operation (R344): every one is accepted in every run state; before the first successful `initialize`, every
other operation is refused (R342), but that a `step` after a failed one reports the failure (R341). -/
def Block.perform : HostOp → Block → BlockAnswer
  | .initialise p rom, .live s => .next (.live (initialise p rom s), some (initialise p rom s).report)
  | .tick, .live s => .next (.live (tick s), some .ok)
  | .step, .live s => performStep s
  | .setKeyState k p, .live s => .next (.live (setKeyState k p s), none)
  | .initialise p rom, .unloaded _ => performLoad p rom
  | .step, .unloaded (some f) => .next (.unloaded (some f), some (.fault f))
  | .step, .unloaded none => .refused .notInitialised
  | .tick, .unloaded _ => .refused .notInitialised
  | .setKeyState _ _, .unloaded _ => .refused .notInitialised

/-- Any sequence of operations, one after the other (R343). -/
def Block.runOps : List HostOp → Block → Host.Outcome Block Fault Refusal
  | [], b => .next b
  | op :: ops, b =>
    match Block.perform op b with
    | .next (b', _) => Block.runOps ops b'
    | .fault f => .fault f
    | .refused r => .refused r

end Sys2Proof.Machine
end

