-- ==== Sys2Proof/Safety.lean ====
section
/-! DEFINITION. What a safe run is, the quiescent states of spec/70_reset_and_hazards.md R349, and the invariants claims are
stated with. -/

namespace Sys2Proof.Machine

/-- The block has not halted: no fault has been taken (spec/60_exceptions.md R304). -/
def Safe (s : State) : Prop := ∀ f, s.run ≠ .halted f

/-- The three quiescent states of R349: halted; about to execute a jump to itself; awaiting a key while none is held. -/
def Quiescent (s : State) : Prop :=
  (∃ f, s.run = .halted f) ∨
  (s.run = .running ∧ s.pc.toNat ≤ 0xFFE ∧ s.wordAt s.pc.toNat = 0x1000#16 + s.pc) ∨
  (∃ x, s.run = .awaitingKey x ∧ s.heldKeys = [])

/-! ## Frames: what an operation leaves as it was -/

/-- Every general register as before. -/
def KeepsRegs (s t : State) : Prop := ∀ r, t.getV r = s.getV r
/-- Every general register but `V[x]` as before. -/
def KeepsRegsBut (x : Reg) (s t : State) : Prop := ∀ r, r ≠ x → t.getV r = s.getV r
/-- `I` as before. -/
def KeepsI (s t : State) : Prop := t.i = s.i
/-- The stack and its depth as before. -/
def KeepsStack (s t : State) : Prop := t.sp = s.sp ∧ ∀ k, t.stack.get k = s.stack.get k
/-- Both timers as before. -/
def KeepsTimers (s t : State) : Prop := t.dt = s.dt ∧ t.st = s.st
/-- Every byte of memory reads as before. -/
def KeepsMemory (s t : State) : Prop := ∀ a, t.byteAt a = s.byteAt a
/-- Every cell of the display as before. -/
def KeepsDisplay (s t : State) : Prop := ∀ col row, t.pixel col row = s.pixel col row
/-- The keys held and the run state as before. -/
def KeepsHeldAndRun (s t : State) : Prop := (∀ k, t.held.get k = s.held.get k) ∧ t.run = s.run
/-- No oracle was drawn. -/
def KeepsDraws (s t : State) : Prop := t.rngDraws = s.rngDraws ∧ t.keyDraws = s.keyDraws
/-- Everything but the general registers, `pc` and the draws as before. -/
def KeepsRest (s t : State) : Prop :=
  KeepsI s t ∧ KeepsStack s t ∧ KeepsTimers s t ∧ KeepsMemory s t ∧ KeepsDisplay s t ∧ KeepsHeldAndRun s t

/-! ## Invariants -/

/-- Memory is in its canonical form. -/
def MemoryCanonical (s : State) : Prop := s.mem.wf = true

/-- The word at the instruction address `a`, which a fetch can read, decodes to `i`. -/
def DecodesAt (s : State) (a : Word) (i : Instr) : Prop := a.toNat ≤ 0xFFE ∧ decode (s.wordAt a.toNat) = .instr i

/-- How many bytes from `I` on an instruction reads or writes (spec/42_display.md R172; spec/43_index_memory.md R203, R204, R205),
and 0 for one that makes no data access. -/
def accessSpan : Instr → Nat
  | .drw _ _ n => n.val
  | .ldB _ => 3
  | .stRegs x | .ldRegs x => x.val + 1
  | .cls | .ret | .jp _ | .call _ | .ldI _ | .jpV0 _ => 0
  | .seImm _ _ | .sneImm _ _ | .ldImm _ _ | .addImm _ _ | .rnd _ _ => 0
  | .seReg _ _ | .sneReg _ _ | .ldReg _ _ | .orReg _ _ | .andReg _ _ | .xorReg _ _ | .addReg _ _ | .subReg _ _ | .shr _ _
  | .subnReg _ _ | .shl _ _ => 0
  | .skp _ | .sknp _ | .ldVxDT _ | .ldVxK _ | .ldDTVx _ | .ldSTVx _ | .addI _ | .ldF _ => 0

/-- The instruction reaches beyond memory: one of its accesses from `I` on lies above 0xFFF (spec/20_memory.md R51). -/
def ReachesBeyond (s : State) (i : Instr) : Prop := accessSpan i ≠ 0 ∧ 0xFFF < s.i.toNat + accessSpan i - 1

/-- The recorded fault fits the state it left: the address is the one `pc` holds, and what the fault blames is still there to
see, because a fault undoes its operation (spec/60_exceptions.md R300, R304): an overrun's instruction reaches beyond memory. -/
def FaultFits (s : State) : Fault → Prop
  | .decodeError op a => s.pc = a ∧ a.toNat ≤ 0xFFE ∧ s.wordAt a.toNat = op ∧ decode op = .illegal op
  | .stackOverflow o d a => o = .push ∧ d = 16 ∧ s.sp.val = 16 ∧ s.pc = a ∧ ∃ nnn, DecodesAt s a (.call nnn)
  | .stackUnderflow o d a => o = .pop ∧ d = 0 ∧ s.sp.val = 0 ∧ s.pc = a ∧ DecodesAt s a .ret
  | .addressOverrun .fetch address a => s.pc = a ∧ 0xFFE < a.toNat ∧ address = max a.toNat 0x1000
  | .addressOverrun .read address a =>
    s.pc = a ∧ address = max s.i.toNat 0x1000 ∧ ∃ i, DecodesAt s a i ∧ (i.op = .drw ∨ i.op = .ldRegs) ∧ ReachesBeyond s i
  | .addressOverrun .write address a =>
    s.pc = a ∧ address = max s.i.toNat 0x1000 ∧ ∃ i, DecodesAt s a i ∧ (i.op = .ldB ∨ i.op = .stRegs) ∧ ReachesBeyond s i
  | .romLoadFailure reason n => reason = .oversize → 3584 < n
  | .drawReject col row n a =>
    drawEdgePolicy = .reject ∧ s.pc = a ∧
      ∃ x y rows, DecodesAt s a (.drw x y rows) ∧ col = s.getV x ∧ row = s.getV y ∧ n = rows.val ∧
        rejects .reject col.toNat row.toNat n = true

/-- The run state fits the rest: a halted block's fault fits, and a block that awaits a key for `V[x]` stands just after an
`Fx0A` with that `x` (spec/44_timer_input.md R240). -/
def RunFits (s : State) : Prop :=
  match s.run with
  | .running => True
  | .awaitingKey x => 2 ≤ s.pc.toNat ∧ DecodesAt s (s.pc - 2) (.ldVxK x)
  | .halted f => FaultFits s f

/-- What every block the host can have meets: a live block's state has canonical memory and a fitting run state; a block that
never loaded holds no failure but one of its ROM (spec/70_reset_and_hazards.md R341, R342). -/
def Block.Fits : Block → Prop
  | .unloaded failure => ∀ f, failure = some f → ∃ reason n, f = .romLoadFailure reason n
  | .live s => MemoryCanonical s ∧ RunFits s

/-- The OPEN parameter `INIT_MEMORY` of an `initialize` is given in canonical form; other operations carry no memory. -/
def HostOp.Fits : HostOp → Prop
  | .initialise p _ => p.memory.wf = true
  | .tick => True
  | .step => True
  | .setKeyState _ _ => True

end Sys2Proof.Machine
end

