-- ==== Sys2Proof/Certificates/Slice0/Obligations.lean ====
section
/-! DEFINITION. The statements for the provers. A statement whose docstring names a decision D<n> of
spec/92_eei_decisions.md or a log entry rests on a choice of the spec's writer or of the model. -/

namespace Sys2Proof.Machine

/-- A sprite pixel at unreduced coordinates `(px, py)` lands on a cell (spec/42_display.md R174, R175, R176). -/
def Lands (policy : EdgePolicy) (px py : Nat) (col : Fin 64) (row : Fin 32) : Prop :=
  match policy with
  | .wrap => px % 64 = col.val ∧ py % 32 = row.val
  | .clip => px = col.val ∧ py = row.val
  | .reject => px = col.val ∧ py = row.val

/-- Some set bit of the `n`-row sprite at `I`, drawn at `(cx, cy)`, lands on the cell (R170, R172). -/
def SpriteCovers (policy : EdgePolicy) (s : State) (cx cy n : Nat) (col : Fin 64) (row : Fin 32) : Prop :=
  ∃ r < n, ∃ c < 8, (s.byteAt (s.i.toNat + r)).getLsbD (7 - c) = true ∧ Lands policy (cx + c) (cy + r) col row

/-- `t` is `s` after the sprite was XORed onto its display, with `VF` the collision flag (R172, R173). -/
def Drawn (policy : EdgePolicy) (cx cy n : Nat) (s t : State) : Prop :=
  (∀ col row, t.pixel col row = true ↔ ¬(s.pixel col row = true ↔ SpriteCovers policy s cx cy n col row)) ∧
  ((∃ col row, s.pixel col row = true ∧ SpriteCovers policy s cx cy n col row) → t.getV 15 = 1#8) ∧
  ((¬∃ col row, s.pixel col row = true ∧ SpriteCovers policy s cx cy n col row) → t.getV 15 = 0#8) ∧
  KeepsRegsBut 15 s t ∧ t.pc = s.pc ∧ KeepsI s t ∧ KeepsStack s t ∧ KeepsTimers s t ∧ KeepsMemory s t ∧
  KeepsHeldAndRun s t ∧ KeepsDraws s t

/-- `t` is `s` with `VF` set to `flag` and then `V[x]` to the value `res`: where `x` is `VF` the value stands; nothing else
changes. -/
def FlagThenResult (x : Reg) (flag : Bool) (res : Nat) (s t : State) : Prop :=
  (t.getV x).toNat = res ∧ (x ≠ 15 → t.getV 15 = if flag then 1#8 else 0#8) ∧
  (∀ r, r ≠ x → r ≠ 15 → t.getV r = s.getV r) ∧ t.pc = s.pc ∧ KeepsRest s t ∧ KeepsDraws s t

/-- `t` is `s` with only `V[x]` changed. -/
def OnlyRegChanges (x : Reg) (s t : State) : Prop := KeepsRegsBut x s t ∧ t.pc = s.pc ∧ KeepsRest s t ∧ KeepsDraws s t

/-- `t` is `s` with at most `pc` changed. -/
def OnlyPcChanges (s t : State) : Prop := KeepsRegs s t ∧ KeepsRest s t ∧ KeepsDraws s t

/-- `t` is the state after a successful `initialize` of `rom` under the OPEN parameters `p` (R340, R33): every element the spec
gives, the model's two draw counters left open. -/
def Initialised (p : InitParams) (rom : List Byte) (t : State) : Prop :=
  (∀ r, t.getV r = 0#8) ∧ t.i = 0#16 ∧ t.pc = 0x200#16 ∧ t.sp.val = 0 ∧ (∀ k, t.stack.get k = 0#16) ∧ t.dt = 0#8 ∧
  t.st = 0#8 ∧ (∀ a : Fin 80, t.byteAt a.val = p.font.get a) ∧
  (∀ a, (h : a < rom.length) → t.byteAt (0x200 + a) = rom[a]) ∧
  (∀ a, (80 ≤ a ∧ a < 0x200) ∨ 0x200 + rom.length ≤ a → t.byteAt a = p.memory.read a) ∧
  t.disp = p.display ∧ (∀ k, t.held.get k = false) ∧ t.run = .running

/-- `initialize` of `rom` fails with `f` (R341, R342, decision D24): a live block `s` is changed in `run` alone and its next step
reports `f`; a block never loaded, whatever failed `earlier`, stays without a state and holds `f`. -/
def LoadFails (p : InitParams) (rom : RomImage) (f : Fault) (s : State) (earlier : Option Fault) : Prop :=
  initialise p rom s = { s with run := .halted f } ∧
  Block.perform (.initialise p rom) (.live s) = .next (.live { s with run := .halted f }, some (.fault f)) ∧
  Block.perform .step (.live { s with run := .halted f }) = .next (.live { s with run := .halted f }, some (.fault f)) ∧
  Block.perform (.initialise p rom) (.unloaded earlier) = .next (.unloaded (some f), some (.fault f))

end Sys2Proof.Machine

open Sys2Proof Sys2Proof.Machine

/-- Decoding the encoding of any instruction gives it back.
spec/30_encoding.md, sections 1 and 2: no operand bit is dropped, the unused `y` of the shifts included. -/
def Obligations.DecodingUndoesEncoding : Prop :=
  ∀ (i : Instr) (rest : List Byte),
    decode (encode i) = .instr i ∧ decodeBytes (encodeBytes i ++ rest) = some (.instr i, rest)

/-- A word that decodes to an instruction is that instruction's encoding.
spec/30_encoding.md, sections 1 and 2: every bit of a word is a fixed bit or part of an operand. -/
def Obligations.EncodingUndoesDecoding : Prop :=
  ∀ (w : Word) (i : Instr), decode w = .instr i → encode i = w

/-- A word decodes to a row's operation exactly if it matches the row, and is illegal if it matches none (decision D2).
spec/30_encoding.md section 2, the full-pattern match: the spec's own decision D2. -/
def Obligations.DecodesExactlyTheTableRows : Prop :=
  ∀ (w : Word),
    (∀ r ∈ opcodeRows, r.admits w = true ↔ ∃ i, decode w = .instr i ∧ i.op = r.op) ∧
    (decode w = .illegal w ↔ ∀ r ∈ opcodeRows, r.admits w = false)

/-- The illegal words, family by family (the spec's own enumeration, decision D2).
spec/30_encoding.md section 4: the list of illegal words the spec derives from its decision D2. -/
def Obligations.IllegalWordsByFamily : Prop :=
  ∀ (w : Word), decode w = .illegal w ↔
    (w.toNat / 0x1000 = 0x0 ∧ w ≠ 0x00E0#16 ∧ w ≠ 0x00EE#16) ∨
    ((w.toNat / 0x1000 = 0x5 ∨ w.toNat / 0x1000 = 0x9) ∧ w.toNat % 16 ≠ 0) ∨
    (w.toNat / 0x1000 = 0x8 ∧ w.toNat % 16 ∈ [0x8, 0x9, 0xA, 0xB, 0xC, 0xD, 0xF]) ∨
    (w.toNat / 0x1000 = 0xE ∧ w.toNat % 256 ∉ [0x9E, 0xA1]) ∨
    (w.toNat / 0x1000 = 0xF ∧ w.toNat % 256 ∉ [0x07, 0x0A, 0x15, 0x18, 0x1E, 0x29, 0x33, 0x55, 0x65])

/-- Words of the spec's examples decode to the instructions they stand for.
spec/30_encoding.md section 2: words the spec's own examples write. -/
def Obligations.SpecWordsDecodeToTheirInstructions : Prop :=
  decode 0x00E0#16 = .instr .cls ∧ decode 0x2300#16 = .instr (.call 0x300#12) ∧
  decode 0x3310#16 = .instr (.seImm 3 0x10#8) ∧ decode 0x8346#16 = .instr (.shr 3 4) ∧
  decode 0xC30F#16 = .instr (.rnd 3 0x0F#8) ∧ decode 0xD012#16 = .instr (.drw 0 1 2) ∧
  decode 0xF255#16 = .instr (.stRegs 2) ∧ decode 0xE29E#16 = .instr (.skp 2)

/-- A listing line assembles exactly if it is well formed, to its operation and operands (decision D21).
spec/30_encoding.md section 5: the assembler syntax, the spec's own decision D21. -/
def Obligations.WellFormedLinesAssemble : Prop :=
  ∀ (l : Line),
    (l.wellFormed = true ↔ ∃ i, l.assemble = some i) ∧
    (∀ i, l.assemble = some i →
      i.op = l.op ∧ i.fields.map Prod.snd = if l.op = .shr ∨ l.op = .shl then l.args ++ [0] else l.args)

/-- A running block's step executes the instruction of the big-endian word at pc, with pc advanced by 2.
spec/20_memory.md R52, with the step cycle of spec/30_encoding.md R77. -/
def Obligations.StepRunsTheDecodedInstruction : Prop :=
  ∀ (s : State) (i : Instr), s.run = .running → s.pc.toNat ≤ 0xFFE →
    decode (BitVec.ofNat 16 ((s.byteAt s.pc.toNat).toNat * 256 + (s.byteAt (s.pc.toNat + 1)).toNat)) = .instr i →
    step s = exec i { s with pc := s.pc + 2 }

/-- An illegal word halts the block, recording the word and its address, with pc unchanged, and the halt lasts (decision D8, log 2).
spec/30_encoding.md section 3 (R78); the clauses on the next step and the report are decision D8 and log 2. -/
def Obligations.IllegalWordHaltsWithPcUnchanged : Prop :=
  ∀ (s : State) (w : Word), s.run = .running → s.pc.toNat ≤ 0xFFE → s.wordAt s.pc.toNat = w → decode w = .illegal w →
    ∃ t, step s = .next t ∧ t = { s with run := .halted (.decodeError w s.pc) } ∧ t.pc = s.pc ∧
      t.report = .fault (.decodeError w s.pc) ∧ step t = .next t

/-- A fetch with pc above 0xFFE halts the block with an AddressOverrun (decisions D5, D19).
spec/30_encoding.md section 3 (the step cycle), with decisions D5 and D19. -/
def Obligations.FetchBeyondMemoryHalts : Prop :=
  ∀ (s : State), s.run = .running → 0xFFE < s.pc.toNat →
    step s = .next { s with run := .halted (.addressOverrun .fetch (if s.pc = 0xFFF#16 then 0x1000 else s.pc.toNat) s.pc) }

/-- A step that faults leaves every state element as it was, but for run, and records its pc (decisions D7, D19).
spec/60_exceptions.md section 4 (fault entry), with decisions D7 and D19. -/
def Obligations.FaultedStepChangesOnlyTheRunState : Prop :=
  ∀ (s t : State) (f : Fault), s.run = .running → step s = .next t → t.run = .halted f →
    t = { s with run := .halted f } ∧ f.pc? = some s.pc

/-- step is defined in every run state: it always answers a next state.
spec/70_reset_and_hazards.md section 3: step is accepted in any run state. That a fault is a next state is log 2. -/
def Obligations.EveryStepAnswersANextState : Prop :=
  ∀ (s : State), ∃ t, step s = .next t

/-- A halted block's step changes nothing and reports the fault again; tick and set_key_state still act (decisions D8, D9).
spec/60_exceptions.md section 5, with decisions D8 and D9 and log 2. -/
def Obligations.HaltedBlockStaysHalted : Prop :=
  ∀ (s : State) (f : Fault) (k : Key) (p : Bool), s.run = .halted f →
    step s = .next s ∧ s.report = .fault f ∧ (tick s).run = .halted f ∧ (tick s).dt.toNat = s.dt.toNat - 1 ∧
    (setKeyState k p s).run = .halted f ∧ (setKeyState k p s).held.get k = p

/-- The three quiescent states are fixed points of step (the spec's derivation; decisions D8, D29).
spec/70_reset_and_hazards.md section 5, marked as derived by the spec, with decisions D8 and D29. -/
def Obligations.QuiescentStatesAreFixed : Prop :=
  ∀ (s : State), Quiescent s → step s = .next s

/-- Only RET, CALL, DRW and the three memory transfers can fault at execution.
spec/60_exceptions.md section 1: no other condition faults. -/
def Obligations.OnlySixOperationsFault : Prop :=
  ∀ (i : Instr) (s t : State) (f : Fault), s.run = .running → exec i s = .next t → t.run = .halted f →
    i.op = .ret ∨ i.op = .call ∨ i.op = .drw ∨ i.op = .ldB ∨ i.op = .stRegs ∨ i.op = .ldRegs

/-- Every step keeps memory in its canonical form.
spec/20_memory.md section 1: no access leaves 0x000..0xFFF. The canonical form is the model's. -/
def Obligations.StepKeepsMemoryCanonical : Prop :=
  ∀ (s t : State), MemoryCanonical s → step s = .next t → MemoryCanonical t

/-- Every step keeps the run state fitting: a recorded fault explains the state it left; a waiting block stands after its Fx0A (D7, D11, D19).
spec/60_exceptions.md section 4 and spec/44_timer_input.md section 4, with decisions D7, D11 and D19. -/
def Obligations.StepKeepsTheRunStateFitting : Prop :=
  ∀ (s t : State), RunFits s → step s = .next t → RunFits t

/-- Every host operation keeps the block's invariant, in any interleaving (decisions D7, D11, D19, D24; log 9).
spec/70_reset_and_hazards.md section 3: operations in any order, with decisions D7, D11, D19 and D24 and log 9. -/
def Obligations.HostOperationsKeepTheBlockFitting : Prop :=
  ∀ (ops : List HostOp) (b b' : Block), b.Fits → (∀ op ∈ ops, op.Fits) → Block.runOps ops b = .next b' → b'.Fits

/-- The state after reset has canonical memory and a fitting run state.
spec/10_state.md section 8. -/
def Obligations.ResetMeetsTheInvariants : Prop :=
  MemoryCanonical State.reset ∧ RunFits State.reset ∧ (Block.live State.reset).Fits

/-- The display is changed by 00E0 and Dxyn only, and by no other host operation than initialize.
spec/10_state.md section 6: the buffer is mutated only by clear and draw. -/
def Obligations.OnlyClearAndDrawChangeTheDisplay : Prop :=
  (∀ (i : Instr) (s t : State), i.op ≠ .cls → i.op ≠ .drw → exec i s = .next t → KeepsDisplay s t) ∧
  (∀ (k : Key) (p : Bool) (s : State), KeepsDisplay s (tick s) ∧ KeepsDisplay s (setKeyState k p s)) ∧
  (∀ (x : Reg) (s t : State), s.run = .awaitingKey x → step s = .next t → KeepsDisplay s t) ∧
  (∀ (f : Fault) (s t : State), s.run = .halted f → step s = .next t → KeepsDisplay s t)

/-- Memory is changed by Fx33 and Fx55 only.
spec/20_memory.md section 1: the instructions that reach memory. -/
def Obligations.OnlyTwoStoresChangeMemory : Prop :=
  (∀ (i : Instr) (s t : State), i.op ≠ .ldB → i.op ≠ .stRegs → exec i s = .next t → KeepsMemory s t) ∧
  (∀ (k : Key) (p : Bool) (s : State), KeepsMemory s (tick s) ∧ KeepsMemory s (setKeyState k p s)) ∧
  (∀ (x : Reg) (s t : State), s.run = .awaitingKey x → step s = .next t → KeepsMemory s t) ∧
  (∀ (f : Fault) (s t : State), s.run = .halted f → step s = .next t → KeepsMemory s t)

/-- I, the stack, the timers and the keys are written by the instructions the state table lists and no others (I: decision D4, log 11).
spec/10_state.md section 8, the columns of writers, with decision D4 (log 11) for I after Fx33, Fx55 and Fx65. -/
def Obligations.EachRegisterHasItsOwnWriters : Prop :=
  ∀ (i : Instr) (s t : State), exec i s = .next t →
    (i.op ≠ .ldI → i.op ≠ .addI → i.op ≠ .ldF → t.i = s.i) ∧
    (i.op ≠ .call → i.op ≠ .ret → KeepsStack s t) ∧
    (i.op ≠ .ldDTVx → t.dt = s.dt) ∧ (i.op ≠ .ldSTVx → t.st = s.st) ∧
    (∀ k, t.held.get k = s.held.get k)

/-- VF changes only by the six flag-writing operations, by naming VF as destination, or by Fx65 loading it (decision D4).
spec/10_state.md section 1 (VF), with decision D4. -/
def Obligations.FlagHasNoOtherWriters : Prop :=
  ∀ (i : Instr) (s t : State), exec i s = .next t → i.op ∉ [.addReg, .subReg, .shr, .subnReg, .shl, .drw] →
    (∀ kk, i ≠ .ldImm 15 kk) → (∀ kk, i ≠ .addImm 15 kk) → (∀ y, i ≠ .ldReg 15 y) → (∀ y, i ≠ .orReg 15 y) →
    (∀ y, i ≠ .andReg 15 y) → (∀ y, i ≠ .xorReg 15 y) → (∀ kk, i ≠ .rnd 15 kk) → i ≠ .ldVxDT 15 → i ≠ .ldVxK 15 →
    i ≠ .ldRegs 15 → t.getV 15 = s.getV 15

/-- Apart from jumps, calls, returns and skips, an instruction that does not fault leaves the advanced pc alone.
spec/10_state.md section 2 and spec/30_encoding.md section 3. -/
def Obligations.OnlyControlInstructionsMovePc : Prop :=
  ∀ (i : Instr) (s t : State), exec i s = .next t → (∀ f, t.run ≠ .halted f) →
    (i.op ∉ [.ret, .jp, .call, .jpV0, .seImm, .sneImm, .seReg, .sneReg, .skp, .sknp] → t.pc = s.pc) ∧
    (i.op ≠ .ldVxK → t.run = s.run)

/-- JP nnn jumps to nnn, JP V0, nnn to nnn plus V0; nothing else changes.
spec/40_control.md R101, R107. -/
def Obligations.JumpsSetThePc : Prop :=
  ∀ (nnn : Addr12) (s : State),
    decode (wordNNN 0x1#4 nnn) = .instr (.jp nnn) ∧ decode (wordNNN 0xB#4 nnn) = .instr (.jpV0 nnn) ∧
    (∃ t, exec (.jp nnn) s = .next t ∧ t.pc.toNat = nnn.toNat ∧ OnlyPcChanges s t) ∧
    (∃ t, exec (.jpV0 nnn) s = .next t ∧ t.pc.toNat = nnn.toNat + (s.getV 0).toNat ∧ OnlyPcChanges s t)

/-- CALL pushes the advanced pc and jumps; with 16 entries it halts with StackOverflow (stack layout: D22; fault details: D19).
spec/40_control.md (CALL) and spec/10_state.md section 4, with decisions D19 and D22. -/
def Obligations.CallPushesTheReturnAddress : Prop :=
  ∀ (nnn : Addr12) (s : State),
    (s.sp.val < 16 → ∃ t, exec (.call nnn) s = .next t ∧ t.pc.toNat = nnn.toNat ∧ t.sp.val = s.sp.val + 1 ∧
      (∀ k : Fin 16, k.val = s.sp.val → t.stack.get k = s.pc) ∧
      (∀ k : Fin 16, k.val ≠ s.sp.val → t.stack.get k = s.stack.get k) ∧
      KeepsRegs s t ∧ KeepsI s t ∧ KeepsTimers s t ∧ KeepsMemory s t ∧ KeepsDisplay s t ∧ KeepsHeldAndRun s t ∧
      KeepsDraws s t) ∧
    (s.sp.val = 16 →
      exec (.call nnn) s = .next { s with pc := s.pc - 2, run := .halted (.stackOverflow .push 16 (s.pc - 2)) })

/-- RET pops the top of the stack into pc; with an empty stack it halts with StackUnderflow (stack layout: D22; fault details: D19).
spec/40_control.md (RET) and spec/10_state.md section 4, with decisions D19 and D22. -/
def Obligations.RetPopsIntoThePc : Prop :=
  ∀ (s : State),
    (0 < s.sp.val → ∃ t, exec .ret s = .next t ∧ t.sp.val = s.sp.val - 1 ∧
      (∀ k : Fin 16, k.val = s.sp.val - 1 → t.pc = s.stack.get k) ∧ (∀ k, t.stack.get k = s.stack.get k) ∧
      KeepsRegs s t ∧ KeepsI s t ∧ KeepsTimers s t ∧ KeepsMemory s t ∧ KeepsDisplay s t ∧ KeepsHeldAndRun s t ∧
      KeepsDraws s t) ∧
    (s.sp.val = 0 →
      exec .ret s = .next { s with pc := s.pc - 2, run := .halted (.stackUnderflow .pop 0 (s.pc - 2)) })

/-- RET after CALL returns to the instruction after the call, whatever the subroutine did to the rest of the state.
spec/40_control.md (RET): the property of vector S5. -/
def Obligations.RetAfterCallRestoresThePc : Prop :=
  ∀ (nnn : Addr12) (s u : State), s.sp.val < 16 →
    ∃ t, exec (.call nnn) s = .next t ∧
      (u.sp = t.sp → u.stack = t.stack → ∃ v, exec .ret u = .next v ∧ v.pc = s.pc ∧ v.sp = s.sp ∧ v.run = u.run)

/-- SE and SNE skip the next instruction exactly if the comparison holds; nothing but pc changes (words with n not 0: decision D2, log 11).
spec/40_control.md R103, R104, R105, R106; that families 5 and 9 with n not 0 are illegal is decision D2 (log 11). -/
def Obligations.SkipsCompareRegisters : Prop :=
  ∀ (x y : Reg) (kk : Byte) (n : BitVec 4) (s : State),
    decode (wordXKK 0x3#4 x kk) = .instr (.seImm x kk) ∧ decode (wordXKK 0x4#4 x kk) = .instr (.sneImm x kk) ∧
    decode (wordXYN 0x5#4 x y n) = (if n = 0#4 then .instr (.seReg x y) else .illegal (wordXYN 0x5#4 x y n)) ∧
    decode (wordXYN 0x9#4 x y n) = (if n = 0#4 then .instr (.sneReg x y) else .illegal (wordXYN 0x9#4 x y n)) ∧
    (∃ t, exec (.seImm x kk) s = .next t ∧ t.pc = (if s.getV x = kk then s.pc + 2 else s.pc) ∧ OnlyPcChanges s t) ∧
    (∃ t, exec (.sneImm x kk) s = .next t ∧ t.pc = (if s.getV x = kk then s.pc else s.pc + 2) ∧ OnlyPcChanges s t) ∧
    (∃ t, exec (.seReg x y) s = .next t ∧ t.pc = (if s.getV x = s.getV y then s.pc + 2 else s.pc) ∧ OnlyPcChanges s t) ∧
    (∃ t, exec (.sneReg x y) s = .next t ∧ t.pc = (if s.getV x = s.getV y then s.pc else s.pc + 2) ∧ OnlyPcChanges s t)

/-- ADD Vx, kk adds modulo 256 and leaves VF alone.
spec/41_alu.md R131. -/
def Obligations.AddImmediateWrapsWithoutACarry : Prop :=
  ∀ (x : Reg) (kk : Byte) (s : State),
    decode (wordXKK 0x7#4 x kk) = .instr (.addImm x kk) ∧
    ∃ t, exec (.addImm x kk) s = .next t ∧ (t.getV x).toNat = ((s.getV x).toNat + kk.toNat) % 256 ∧ OnlyRegChanges x s t

/-- LD Vx, kk and LD Vx, Vy copy into V[x] and change nothing else (VF: decision D4).
spec/41_alu.md sections 2 and 3, with decision D4. -/
def Obligations.LoadsCopyIntoARegister : Prop :=
  ∀ (x y : Reg) (kk : Byte) (s : State),
    (∃ t, exec (.ldImm x kk) s = .next t ∧ t.getV x = kk ∧ OnlyRegChanges x s t) ∧
    (∃ t, exec (.ldReg x y) s = .next t ∧ t.getV x = s.getV y ∧ OnlyRegChanges x s t)

/-- OR, AND and XOR combine V[x] and V[y] bit by bit and do not reset VF (decision D4).
spec/41_alu.md section 3, with decision D4. -/
def Obligations.LogicCombinesBitwise : Prop :=
  ∀ (x y : Reg) (s : State),
    (∃ t, exec (.orReg x y) s = .next t ∧ OnlyRegChanges x s t ∧
      ∀ b, (t.getV x).getLsbD b = ((s.getV x).getLsbD b || (s.getV y).getLsbD b)) ∧
    (∃ t, exec (.andReg x y) s = .next t ∧ OnlyRegChanges x s t ∧
      ∀ b, (t.getV x).getLsbD b = ((s.getV x).getLsbD b && (s.getV y).getLsbD b)) ∧
    (∃ t, exec (.xorReg x y) s = .next t ∧ OnlyRegChanges x s t ∧
      ∀ b, (t.getV x).getLsbD b = ((s.getV x).getLsbD b ^^ (s.getV y).getLsbD b))

/-- ADD Vx, Vy adds modulo 256 with the carry in VF; with x = F the sum stands (decision D3).
spec/41_alu.md section 3 (ADD Vx, Vy), with decision D3 for x = F and y = F. -/
def Obligations.AddSetsTheCarryFlag : Prop :=
  ∀ (x y : Reg) (s : State),
    ∃ t, exec (.addReg x y) s = .next t ∧
      FlagThenResult x (decide (255 < (s.getV x).toNat + (s.getV y).toNat)) (((s.getV x).toNat + (s.getV y).toNat) % 256) s t

/-- SUB and SUBN subtract modulo 256 with NOT borrow in VF; with x = F the difference stands (decision D3).
spec/41_alu.md section 3 (SUB, SUBN), with decision D3. -/
def Obligations.SubtractionsSetNotBorrow : Prop :=
  ∀ (x y : Reg) (s : State),
    (∃ t, exec (.subReg x y) s = .next t ∧
      FlagThenResult x (decide ((s.getV y).toNat ≤ (s.getV x).toNat))
        (((s.getV x).toNat + 256 - (s.getV y).toNat) % 256) s t) ∧
    (∃ t, exec (.subnReg x y) s = .next t ∧
      FlagThenResult x (decide ((s.getV x).toNat ≤ (s.getV y).toNat))
        (((s.getV y).toNat + 256 - (s.getV x).toNat) % 256) s t)

/-- SHR and SHL shift V[x] by one with the lost bit in VF, and ignore y; with x = F the shifted value stands (decision D3).
spec/41_alu.md section 3 (SHR, SHL), with decision D3. -/
def Obligations.ShiftsPutTheLostBitInTheFlag : Prop :=
  ∀ (x y z : Reg) (s : State),
    (∃ t, exec (.shr x y) s = .next t ∧ exec (.shr x z) s = .next t ∧
      FlagThenResult x (decide ((s.getV x).toNat % 2 = 1)) ((s.getV x).toNat / 2) s t) ∧
    (∃ t, exec (.shl x y) s = .next t ∧ exec (.shl x z) s = .next t ∧
      FlagThenResult x (decide (128 ≤ (s.getV x).toNat)) ((s.getV x).toNat * 2 % 256) s t)

/-- RND loads one fresh random byte masked by kk (the byte is a free value: log 6, decision D13; VF: decision D4, log 11).
spec/41_alu.md section 4, with decisions D4 (log 11) and D13 and log 6. -/
def Obligations.RandomByteIsMaskedAndDrawnOnce : Prop :=
  ∀ (x : Reg) (kk : Byte) (s : State),
    ∃ t, exec (.rnd x kk) s = .next t ∧ t.getV x = Config.randomByte s.rngDraws &&& kk ∧
      t.rngDraws = s.rngDraws + 1 ∧ t.keyDraws = s.keyDraws ∧ (kk = 0#8 → t.getV x = 0#8) ∧
      KeepsRegsBut x s t ∧ t.pc = s.pc ∧ KeepsRest s t

/-- CLS turns every cell off and changes nothing else (VF: decision D4).
spec/42_display.md section 2, with decision D4. -/
def Obligations.ClearTurnsEveryCellOff : Prop :=
  ∀ (s : State),
    ∃ t, exec .cls s = .next t ∧ (∀ col row, t.pixel col row = false) ∧ KeepsRegs s t ∧ t.pc = s.pc ∧ KeepsI s t ∧
      KeepsStack s t ∧ KeepsTimers s t ∧ KeepsMemory s t ∧ KeepsHeldAndRun s t ∧ KeepsDraws s t

/-- DRW XORs the 8-by-n sprite onto the display with wrap-around and sets VF to the collision flag (wrap: decision D10).
spec/42_display.md sections 1 and 3, with decision D10 and log 8. -/
def Obligations.DrawXorsTheSpriteAndReportsCollision : Prop :=
  ∀ (x y : Reg) (n : Rows) (s : State), n.val = 0 ∨ s.i.toNat + n.val ≤ 0x1000 →
    ∃ t, exec (.drw x y n) s = .next t ∧ Drawn .wrap (s.getV x).toNat (s.getV y).toNat n.val s t

/-- The row-mask datapath of the compositor computes what the per-pixel loop computes (the spec's derivation).
spec/42_display.md section 3, the datapath, marked as derived by the spec. -/
def Obligations.DatapathEqualsThePixelLoop : Prop :=
  ∀ (policy : EdgePolicy) (d : Display) (cx cy : Nat) (sprite : List Byte),
    compositeSprite policy d cx cy sprite = drawSprite policy d cx cy sprite

/-- Drawing the same sprite twice restores the display, and on a blank one the second draw collides if the sprite has a set bit.
spec/42_display.md section 3, the property of vector S4. -/
def Obligations.DrawingTwiceRestoresTheDisplay : Prop :=
  ∀ (policy : EdgePolicy) (d : Display) (cx cy : Nat) (sprite : List Byte),
    (drawSprite policy (drawSprite policy d cx cy sprite).disp cx cy sprite).disp = d ∧
    (sprite.length ≤ 15 →
      (drawSprite .wrap blankDisplay cx cy sprite).hit = false ∧
      ((drawSprite .wrap (drawSprite .wrap blankDisplay cx cy sprite).disp cx cy sprite).hit = true ↔
        ∃ b ∈ sprite, b ≠ 0#8))

/-- Under the clip policy a draw lights only pixels inside the grid (decision D10; not this hardware's policy).
spec/42_display.md section 3 (clip), with decision D10. -/
def Obligations.ClipDropsPixelsOutsideTheGrid : Prop :=
  ∀ (x y : Reg) (n : Rows) (s : State), n.val = 0 ∨ s.i.toNat + n.val ≤ 0x1000 →
    ∃ t, drawWith .clip x y n s = .next t ∧ Drawn .clip (s.getV x).toNat (s.getV y).toNat n.val s t ∧
      (64 ≤ (s.getV x).toNat ∨ 32 ≤ (s.getV y).toNat → KeepsDisplay s t ∧ t.getV 15 = 0#8)

/-- Under reject a draw that leaves the grid halts with DrawReject, and inside the grid all three policies agree (decisions D10, D19, D27).
spec/42_display.md section 3 (reject), with decisions D10, D19 and D27. -/
def Obligations.RejectFaultsOrAgreesWithWrap : Prop :=
  ∀ (x y : Reg) (n : Rows) (s : State), n.val ≠ 0 →
    (s.i.toNat + n.val ≤ 0x1000 → (63 < (s.getV x).toNat + 7 ∨ 31 < (s.getV y).toNat + n.val - 1) →
      drawWith .reject x y n s =
        .next { s with pc := s.pc - 2, run := .halted (.drawReject (s.getV x) (s.getV y) n.val (s.pc - 2)) }) ∧
    ((s.getV x).toNat + 7 ≤ 63 → (s.getV y).toNat + n.val - 1 ≤ 31 →
      drawWith .reject x y n s = drawWith .wrap x y n s ∧ drawWith .clip x y n s = drawWith .wrap x y n s) ∧
    (0x1000 < s.i.toNat + n.val → ∀ policy, drawWith policy x y n s =
      .next { s with pc := s.pc - 2, run := .halted (.addressOverrun .read (max s.i.toNat 0x1000) (s.pc - 2)) })

/-- LD I, nnn loads the 12-bit address field into I; nothing else changes.
spec/43_index_memory.md R200. -/
def Obligations.LoadIndexTakesTheAddressField : Prop :=
  ∀ (nnn : Addr12) (s : State),
    decode (wordNNN 0xA#4 nnn) = .instr (.ldI nnn) ∧
    ∃ t, exec (.ldI nnn) s = .next t ∧ t.i.toNat = nnn.toNat ∧ t.i.toNat ≤ 0xFFF ∧ KeepsRegs s t ∧ t.pc = s.pc ∧
      KeepsStack s t ∧ KeepsTimers s t ∧ KeepsMemory s t ∧ KeepsDisplay s t ∧ KeepsHeldAndRun s t ∧ KeepsDraws s t

/-- ADD I, Vx adds modulo 2^16 without check or flag; LD F, Vx sets I to five times V[x] (decisions D4, D6, D14).
spec/43_index_memory.md (ADD I, LD F), with decisions D4, D6 and D14. -/
def Obligations.IndexArithmeticWrapsAt16Bits : Prop :=
  ∀ (x : Reg) (s : State),
    (∃ t, exec (.addI x) s = .next t ∧ t.i.toNat = (s.i.toNat + (s.getV x).toNat) % 65536 ∧ KeepsRegs s t ∧ t.pc = s.pc ∧
      KeepsStack s t ∧ KeepsTimers s t ∧ KeepsMemory s t ∧ KeepsDisplay s t ∧ KeepsHeldAndRun s t ∧ KeepsDraws s t) ∧
    (∃ t, exec (.ldF x) s = .next t ∧ t.i.toNat = 5 * (s.getV x).toNat ∧ KeepsRegs s t ∧ t.pc = s.pc ∧
      KeepsStack s t ∧ KeepsTimers s t ∧ KeepsMemory s t ∧ KeepsDisplay s t ∧ KeepsHeldAndRun s t ∧ KeepsDraws s t)

/-- LD B, Vx stores hundreds, tens and ones of V[x] at I, I+1, I+2 and changes nothing else (I: decision D4).
spec/43_index_memory.md (LD B), with decision D4. MemoryCanonical is an invariant: StepKeepsMemoryCanonical. -/
def Obligations.DecimalDigitsAreStoredAtI : Prop :=
  ∀ (x : Reg) (s : State), MemoryCanonical s → s.i.toNat + 2 ≤ 0xFFF →
    ∃ t, exec (.ldB x) s = .next t ∧ (t.byteAt s.i.toNat).toNat = (s.getV x).toNat / 100 ∧
      (t.byteAt (s.i.toNat + 1)).toNat = (s.getV x).toNat / 10 % 10 ∧
      (t.byteAt (s.i.toNat + 2)).toNat = (s.getV x).toNat % 10 ∧
      (∀ a, (a < s.i.toNat ∨ s.i.toNat + 2 < a) → t.byteAt a = s.byteAt a) ∧
      KeepsRegs s t ∧ t.pc = s.pc ∧ KeepsI s t ∧ KeepsStack s t ∧ KeepsTimers s t ∧ KeepsDisplay s t ∧
      KeepsHeldAndRun s t ∧ KeepsDraws s t

/-- LD [I], Vx stores V0 to Vx inclusive from I on and changes nothing else (I: decision D4).
spec/43_index_memory.md (LD [I]), with decision D4. MemoryCanonical is an invariant: StepKeepsMemoryCanonical. -/
def Obligations.RegistersAreStoredInclusively : Prop :=
  ∀ (x : Reg) (s : State), MemoryCanonical s → s.i.toNat + x.val ≤ 0xFFF →
    ∃ t, exec (.stRegs x) s = .next t ∧ (∀ r : Reg, r.val ≤ x.val → t.byteAt (s.i.toNat + r.val) = s.getV r) ∧
      (∀ a, (a < s.i.toNat ∨ s.i.toNat + x.val < a) → t.byteAt a = s.byteAt a) ∧
      KeepsRegs s t ∧ t.pc = s.pc ∧ KeepsI s t ∧ KeepsStack s t ∧ KeepsTimers s t ∧ KeepsDisplay s t ∧
      KeepsHeldAndRun s t ∧ KeepsDraws s t

/-- LD Vx, [I] loads V0 to Vx inclusive from I on and changes nothing else (I: decision D4).
spec/43_index_memory.md (LD Vx, [I]), with decision D4. -/
def Obligations.RegistersAreLoadedInclusively : Prop :=
  ∀ (x : Reg) (s : State), s.i.toNat + x.val ≤ 0xFFF →
    ∃ t, exec (.ldRegs x) s = .next t ∧ (∀ r : Reg, r.val ≤ x.val → t.getV r = s.byteAt (s.i.toNat + r.val)) ∧
      (∀ r : Reg, x.val < r.val → t.getV r = s.getV r) ∧ t.pc = s.pc ∧ KeepsRest s t ∧ KeepsDraws s t

/-- Storing V0 to Vx and loading them back from the same address restores them, whatever the registers held in between.
spec/43_index_memory.md (LD Vx, [I]): the property of vector S6. -/
def Obligations.StoreThenLoadRestoresRegisters : Prop :=
  ∀ (x : Reg) (s u : State), MemoryCanonical s → s.i.toNat + x.val ≤ 0xFFF →
    ∃ t, exec (.stRegs x) s = .next t ∧
      (u.mem = t.mem → u.i = s.i → ∃ v, exec (.ldRegs x) u = .next v ∧ ∀ r : Reg, r.val ≤ x.val → v.getV r = s.getV r)

/-- A store over the next instruction changes what the next step executes (decision D26).
spec/20_memory.md section 4 (no prefetch), with decision D26. -/
def Obligations.AStoreIsSeenByTheNextFetch : Prop :=
  ∀ (x : Reg) (j k : Reg) (s : State) (i : Instr), MemoryCanonical s → s.run = .running → s.i.toNat + x.val ≤ 0xFFF →
    k.val = j.val + 1 → k.val ≤ x.val → s.pc.toNat = s.i.toNat + j.val → decode (joinBytes (s.getV j) (s.getV k)) = .instr i →
    ∃ t, exec (.stRegs x) s = .next t ∧ step t = exec i { t with pc := t.pc + 2 }

/-- DRW, LD B, LD [I] and LD Vx, [I] that reach beyond 0xFFF halt with an AddressOverrun and write nothing (decisions D7, D19).
spec/20_memory.md section 1 and spec/60_exceptions.md section 1, with decisions D7 and D19. -/
def Obligations.AccessBeyondMemoryHalts : Prop :=
  ∀ (x y : Reg) (n : Rows) (s : State),
    (n.val ≠ 0 → 0xFFF < s.i.toNat + n.val - 1 → exec (.drw x y n) s =
      .next { s with pc := s.pc - 2, run := .halted (.addressOverrun .read (max s.i.toNat 0x1000) (s.pc - 2)) }) ∧
    (0xFFF < s.i.toNat + 2 → exec (.ldB x) s =
      .next { s with pc := s.pc - 2, run := .halted (.addressOverrun .write (max s.i.toNat 0x1000) (s.pc - 2)) }) ∧
    (0xFFF < s.i.toNat + x.val → exec (.stRegs x) s =
      .next { s with pc := s.pc - 2, run := .halted (.addressOverrun .write (max s.i.toNat 0x1000) (s.pc - 2)) }) ∧
    (0xFFF < s.i.toNat + x.val → exec (.ldRegs x) s =
      .next { s with pc := s.pc - 2, run := .halted (.addressOverrun .read (max s.i.toNat 0x1000) (s.pc - 2)) })

/-- LD Vx, DT reads the delay timer; LD DT, Vx and LD ST, Vx set the timers; nothing else changes (sound_active: decision D23, log 11).
spec/44_timer_input.md R232, R233, R234; the clause on sound_active is decision D23 (R231, log 11). -/
def Obligations.TimerInstructionsMoveTheTimers : Prop :=
  ∀ (x : Reg) (s : State),
    decode (wordXKK 0xF#4 x 0x07#8) = .instr (.ldVxDT x) ∧ decode (wordXKK 0xF#4 x 0x15#8) = .instr (.ldDTVx x) ∧
    decode (wordXKK 0xF#4 x 0x18#8) = .instr (.ldSTVx x) ∧
    (∃ t, exec (.ldVxDT x) s = .next t ∧ t.getV x = s.dt ∧ OnlyRegChanges x s t) ∧
    (∃ t, exec (.ldDTVx x) s = .next t ∧ t.dt = s.getV x ∧ t.st = s.st ∧ KeepsRegs s t ∧ t.pc = s.pc ∧ KeepsI s t ∧
      KeepsStack s t ∧ KeepsMemory s t ∧ KeepsDisplay s t ∧ KeepsHeldAndRun s t ∧ KeepsDraws s t) ∧
    (∃ t, exec (.ldSTVx x) s = .next t ∧ t.st = s.getV x ∧ (t.soundActive = true ↔ s.getV x ≠ 0#8) ∧ t.dt = s.dt ∧
      KeepsRegs s t ∧ t.pc = s.pc ∧ KeepsI s t ∧ KeepsStack s t ∧ KeepsMemory s t ∧ KeepsDisplay s t ∧
      KeepsHeldAndRun s t ∧ KeepsDraws s t)

/-- tick decrements each nonzero timer by one, never below zero, and changes nothing else, in every run state (decision D9).
spec/44_timer_input.md section 1, with decisions D9 and D23. -/
def Obligations.TickCountsEachTimerDownToZero : Prop :=
  ∀ (s : State), (tick s).dt.toNat = s.dt.toNat - 1 ∧ (tick s).st.toNat = s.st.toNat - 1 ∧
    ((tick s).soundActive = true ↔ 1 < s.st.toNat) ∧
    KeepsRegs s (tick s) ∧ (tick s).pc = s.pc ∧ KeepsI s (tick s) ∧ KeepsStack s (tick s) ∧ KeepsMemory s (tick s) ∧
    KeepsDisplay s (tick s) ∧ KeepsHeldAndRun s (tick s) ∧ KeepsDraws s (tick s)

/-- set_key_state(k, p) sets held[k] to p and changes nothing else, in every run state.
spec/44_timer_input.md R237. -/
def Obligations.SetKeyStateSetsOneKey : Prop :=
  ∀ (k : Key) (p : Bool) (s : State),
    (setKeyState k p s).held.get k = p ∧ (∀ j, j ≠ k → (setKeyState k p s).held.get j = s.held.get j) ∧
    (setKeyState k p s).run = s.run ∧ KeepsRegs s (setKeyState k p s) ∧ (setKeyState k p s).pc = s.pc ∧
    KeepsI s (setKeyState k p s) ∧ KeepsStack s (setKeyState k p s) ∧ KeepsTimers s (setKeyState k p s) ∧
    KeepsMemory s (setKeyState k p s) ∧ KeepsDisplay s (setKeyState k p s) ∧ KeepsDraws s (setKeyState k p s) ∧
    Block.perform (.setKeyState k p) (.live s) = .next (.live (setKeyState k p s), none)

/-- SKP skips if the current key is V[x], SKNP if it is not; with several keys held the oracle chooses (log 7, decision D12).
spec/44_timer_input.md sections 3 and 4, with decision D12 and log 7. -/
def Obligations.KeySkipsAskTheCurrentKey : Prop :=
  ∀ (x : Reg) (s : State),
    ((∀ k, s.held.get k = false) →
      (∃ t, exec (.skp x) s = .next t ∧ t.pc = s.pc ∧ OnlyPcChanges s t) ∧
      (∃ t, exec (.sknp x) s = .next t ∧ t.pc = s.pc + 2 ∧ OnlyPcChanges s t)) ∧
    ((∃ k, s.held.get k = true) → ∃ k, s.held.get k = true ∧
      (∃ t, exec (.skp x) s = .next t ∧ t.pc = (if (s.getV x).toNat = k.val then s.pc + 2 else s.pc) ∧
        KeepsRegs s t ∧ KeepsRest s t ∧ t.rngDraws = s.rngDraws) ∧
      (∃ t, exec (.sknp x) s = .next t ∧ t.pc = (if (s.getV x).toNat = k.val then s.pc else s.pc + 2) ∧
        KeepsRegs s t ∧ KeepsRest s t ∧ t.rngDraws = s.rngDraws))

/-- LD Vx, K takes a held key at once, and otherwise leaves the block awaiting a key with pc advanced (decisions D11, D12).
spec/44_timer_input.md section 4, with decisions D11 and D12 and log 7. -/
def Obligations.KeyWaitTakesAHeldKeyOrAwaits : Prop :=
  ∀ (x : Reg) (s : State),
    ((∃ k, s.held.get k = true) → ∃ t k, exec (.ldVxK x) s = .next t ∧ s.held.get k = true ∧ (t.getV x).toNat = k.val ∧
      KeepsRegsBut x s t ∧ t.pc = s.pc ∧ KeepsRest s t ∧ t.rngDraws = s.rngDraws) ∧
    ((∀ k, s.held.get k = false) → exec (.ldVxK x) s = .next { s with run := .awaitingKey x })

/-- A step of a block awaiting a key executes nothing: it takes a held key and runs again, or changes nothing (decisions D11, D12).
spec/44_timer_input.md section 4, with decisions D11 and D12. -/
def Obligations.AwaitingStepPollsForAKey : Prop :=
  ∀ (x : Reg) (k : Key) (s : State), s.run = .awaitingKey x →
    ((∀ j, s.held.get j = false) → step s = .next s ∧ s.report = .awaitingKey) ∧
    ((∃ j, s.held.get j = true) → ∃ t j, step s = .next t ∧ t.run = .running ∧ s.held.get j = true ∧
      (t.getV x).toNat = j.val ∧ KeepsRegsBut x s t ∧ t.pc = s.pc ∧ KeepsI s t ∧ KeepsStack s t ∧ KeepsTimers s t ∧
      KeepsMemory s t ∧ KeepsDisplay s t ∧ (∀ j, t.held.get j = s.held.get j) ∧ t.rngDraws = s.rngDraws) ∧
    (∃ t, step (setKeyState k true s) = .next t ∧ t.run = .running)

/-- initialize sets every state element, of a loaded block and of one never loaded: registers 0, pc 0x200, font, ROM, OPEN parameters (D16 to D18, D24).
spec/70_reset_and_hazards.md sections 1 and 3 and spec/10_state.md section 8, with decisions D16, D17, D18, D24 and log 9. -/
def Obligations.InitializeSetsEveryElement : Prop :=
  ∀ (p : InitParams) (rom : List Byte) (s : State) (earlier : Option Fault), p.memory.wf = true → rom.length ≤ 3584 →
    Initialised p rom (initialise p (.bytes rom) s) ∧
    Block.perform (.initialise p (.bytes rom)) (.live s) = .next (.live (initialise p (.bytes rom) s), some .ok) ∧
    ∃ t, Block.perform (.initialise p (.bytes rom)) (.unloaded earlier) = .next (.live t, some .ok) ∧ Initialised p rom t ∧
      (s.rngDraws = t.rngDraws → s.keyDraws = t.keyDraws → t = initialise p (.bytes rom) s)

/-- An oversized or unreadable ROM loads no byte and halts the block; a block never loaded refuses every other operation (decision D24, log 9).
spec/70_reset_and_hazards.md sections 1 and 3, with decision D24 (log 9). -/
def Obligations.FailedLoadHaltsAndLoadsNothing : Prop :=
  ∀ (p : InitParams) (rom : List Byte) (n : Nat) (s : State) (earlier : Option Fault) (k : Key) (b : Bool),
    (3584 < rom.length → LoadFails p (.bytes rom) (.romLoadFailure .oversize rom.length) s earlier) ∧
    LoadFails p (.unreadable n) (.romLoadFailure .unreadable n) s earlier ∧
    (∀ f, Block.perform .step (.unloaded (some f)) = .next (.unloaded (some f), some (.fault f))) ∧
    Block.perform .step (.unloaded none) = .refused .notInitialised ∧
    Block.perform .tick (.unloaded earlier) = .refused .notInitialised ∧
    Block.perform (.setKeyState k b) (.unloaded earlier) = .refused .notInitialised

/-- State.reset is what initialize of an empty ROM gives with the model's named parameters (logs 3, 4, 5, 6, 7).
spec/70_reset_and_hazards.md section 1; the parameter values are the model's, logs 3 to 7. -/
def Obligations.ResetIsInitializeWithAnEmptyRom : Prop :=
  (∀ (s : State), s.rngDraws = 0 → s.keyDraws = 0 → initialise InitParams.default (.bytes []) s = State.reset) ∧
  (∀ r, State.reset.getV r = 0#8) ∧ State.reset.i = 0#16 ∧ State.reset.pc = 0x200#16 ∧ State.reset.sp.val = 0 ∧
  (∀ k, State.reset.stack.get k = 0#16) ∧ State.reset.dt = 0#8 ∧ State.reset.st = 0#8 ∧ State.reset.run = .running

/-- Placing an instruction's word where step fetches makes the next step execute it.
spec/30_encoding.md section 3; withFetchWord is the model's (log 10). -/
def Obligations.PlacedWordIsTheNextInstruction : Prop :=
  ∀ (i : Instr) (s : State), MemoryCanonical s →
    step (s.withFetchWord 16 (encode i).toNat) =
      exec i { s.withFetchWord 16 (encode i).toNat with pc := (s.withFetchWord 16 (encode i).toNat).pc + 2 } ∧
    (s.pc.toNat ≤ 0xFFE → (s.withFetchWord 16 (encode i).toNat).pc = s.pc)
end

