-- ==== Sys2Proof/Laws/Encoding.lean ====
section
/-! SUPPORT. The fields of words built by the encoder, and of bytes joined by a fetch. -/

namespace Sys2Proof

/-- The high part of an appended pair. -/
theorem field_high {m n : Nat} (h : BitVec m) (a : BitVec n) : BitVec.extractLsb' n m (h ++ a) = h := by
  rw [BitVec.extractLsb'_append_eq_of_le (Nat.le_refl n)]
  simp

/-- The low part of an appended pair. -/
theorem field_low {m n : Nat} (h : BitVec m) (a : BitVec n) : BitVec.extractLsb' 0 n (h ++ a) = a := by
  rw [BitVec.extractLsb'_append_eq_of_add_le (by omega)]
  simp

/-- A field that lies within the low part. -/
theorem field_within {m n : Nat} (h : BitVec m) (a : BitVec n) (s l : Nat) (hl : s + l ≤ n) :
    BitVec.extractLsb' s l (h ++ a) = BitVec.extractLsb' s l a := by
  rw [BitVec.extractLsb'_append_eq_of_add_le hl]

@[simp] theorem nibbleNum_numNibble (x : Fin 16) : nibbleNum (numNibble x) = x := rfl
@[simp] theorem numNibble_nibbleNum (b : BitVec 4) : numNibble (nibbleNum b) = b := rfl

@[simp] theorem opH_wordNNN (h : BitVec 4) (a : Addr12) : opH (wordNNN h a) = h := field_high h a
@[simp] theorem opNNN_wordNNN (h : BitVec 4) (a : Addr12) : opNNN (wordNNN h a) = a := field_low h a

@[simp] theorem opH_wordXKK (h : BitVec 4) (x : Reg) (k : Byte) : opH (wordXKK h x k) = h := field_high h (numNibble x ++ k)
@[simp] theorem opX_wordXKK (h : BitVec 4) (x : Reg) (k : Byte) : opX (wordXKK h x k) = numNibble x :=
  (field_within h (numNibble x ++ k) 8 4 (by omega)).trans (field_high (numNibble x) k)
@[simp] theorem opKK_wordXKK (h : BitVec 4) (x : Reg) (k : Byte) : opKK (wordXKK h x k) = k :=
  (field_within h (numNibble x ++ k) 0 8 (by omega)).trans (field_low (numNibble x) k)
/-- The nibbles of the low byte, where a pattern fixes that byte. -/
@[simp] theorem opY_wordXKK (h : BitVec 4) (x : Reg) (k : Byte) : opY (wordXKK h x k) = k.extractLsb' 4 4 :=
  (field_within h (numNibble x ++ k) 4 4 (by omega)).trans (field_within (numNibble x) k 4 4 (by omega))
@[simp] theorem opN_wordXKK (h : BitVec 4) (x : Reg) (k : Byte) : opN (wordXKK h x k) = k.extractLsb' 0 4 :=
  (field_within h (numNibble x ++ k) 0 4 (by omega)).trans (field_within (numNibble x) k 0 4 (by omega))

@[simp] theorem opH_wordXYN (h : BitVec 4) (x y : Reg) (n : BitVec 4) : opH (wordXYN h x y n) = h :=
  field_high h (numNibble x ++ (numNibble y ++ n))
@[simp] theorem opX_wordXYN (h : BitVec 4) (x y : Reg) (n : BitVec 4) : opX (wordXYN h x y n) = numNibble x :=
  (field_within h (numNibble x ++ (numNibble y ++ n)) 8 4 (by omega)).trans (field_high (numNibble x) (numNibble y ++ n))
@[simp] theorem opY_wordXYN (h : BitVec 4) (x y : Reg) (n : BitVec 4) : opY (wordXYN h x y n) = numNibble y :=
  (field_within h (numNibble x ++ (numNibble y ++ n)) 4 4 (by omega)).trans
    ((field_within (numNibble x) (numNibble y ++ n) 4 4 (by omega)).trans (field_high (numNibble y) n))
@[simp] theorem opN_wordXYN (h : BitVec 4) (x y : Reg) (n : BitVec 4) : opN (wordXYN h x y n) = n :=
  (field_within h (numNibble x ++ (numNibble y ++ n)) 0 4 (by omega)).trans
    ((field_within (numNibble x) (numNibble y ++ n) 0 4 (by omega)).trans (field_low (numNibble y) n))

@[simp] theorem hiByte_joinBytes (hi lo : Byte) : hiByte (joinBytes hi lo) = hi := field_high hi lo
@[simp] theorem loByte_joinBytes (hi lo : Byte) : loByte (joinBytes hi lo) = lo := field_low hi lo

@[simp] theorem joinBytes_hiByte_loByte (w : Word) : joinBytes (hiByte w) (loByte w) = w := by
  have h : (BitVec.extractLsb' 8 8 w ++ BitVec.extractLsb' 0 8 w : BitVec (8 + 8)) = w := by
    rw [BitVec.extractLsb'_append_extractLsb'_eq_extractLsb' (by omega)]
    simp
  exact h

/-- A decoded word's tree, level 1 (R73): which family function a high nibble selects. -/
theorem decode_of_opH_8 (w : Word) (h : opH w = 0x8#4) : decode w = decode8 w := by simp [decode, h]
theorem decode_of_opH_E (w : Word) (h : opH w = 0xE#4) : decode w = decodeE w := by simp [decode, h]
theorem decode_of_opH_F (w : Word) (h : opH w = 0xF#4) : decode w = decodeF w := by simp [decode, h]

end Sys2Proof
end

