-- ==== Sys2Proof/Laws/Memory.lean ====
section
/-! SUPPORT. Memory: reading after writing, and that every operation keeps the canonical form. -/

namespace Sys2Proof.Machine

theorem Memory.read_put (m : Memory) (a : Nat) (v : Byte) (k : Nat) :
    ∀ lo, Memory.wfFrom lo m = true → (Memory.put m a v).read k = if k = a then v else m.read k := by
  induction m with
  | nil =>
    intro lo _
    unfold Memory.put
    split
    · rename_i hv
      by_cases hk : k = a
      · rw [if_pos hk, hk, hv, Memory.read]
      · rw [if_neg hk]
    · show (if a = k then v else unlistedByte k) = if k = a then v else unlistedByte k
      by_cases hk : k = a
      · rw [if_pos hk, if_pos hk.symm]
      · rw [if_neg hk, if_neg (fun e => hk e.symm)]
  | cons c rest ih =>
    obtain ⟨ka, b⟩ := c
    intro lo h
    simp only [Memory.wfFrom, Bool.and_eq_true, decide_eq_true_eq] at h
    obtain ⟨_, _, _, hr⟩ := h
    have hlow : ∀ (m : Memory) (lo j : Nat), Memory.wfFrom lo m = true → j < lo → m.read j = unlistedByte j := by
      intro m
      induction m with
      | nil => intros; rfl
      | cons d t iht =>
        obtain ⟨kd, bd⟩ := d
        intro lo j hm hj
        simp only [Memory.wfFrom, Bool.and_eq_true, decide_eq_true_eq] at hm
        rw [Memory.read, if_neg (by omega)]
        exact iht (kd + 1) j hm.2.2.2 (by omega)
    unfold Memory.put
    split
    · rename_i hlt
      have hu : Memory.read rest a = unlistedByte a := hlow rest (ka + 1) a hr (by omega)
      split
      · rename_i hv
        by_cases hk : k = a
        · rw [if_pos hk, hk, Memory.read, if_neg (by omega), hu, hv]
        · rw [if_neg hk]
      · by_cases hk : k = a
        · simp [Memory.read, hk]
        · rw [if_neg hk, Memory.read, if_neg (fun e => hk e.symm)]
    · split
      · rename_i _ he
        subst he
        have hu : Memory.read rest a = unlistedByte a := hlow rest (a + 1) a hr (by omega)
        split
        · rename_i hv
          by_cases hk : k = a
          · rw [if_pos hk, hk, hu, hv]
          · rw [if_neg hk, Memory.read, if_neg (fun e => hk e.symm)]
        · by_cases hk : k = a
          · simp [Memory.read, hk]
          · rw [if_neg hk, Memory.read, if_neg (fun e => hk e.symm), Memory.read, if_neg (fun e => hk e.symm)]
      · rename_i h1 h2
        rw [Memory.read, Memory.read, ih (ka + 1) hr]
        by_cases hk : ka = k
        · rw [if_pos hk, if_pos hk, if_neg (by omega)]
        · rw [if_neg hk, if_neg hk]

theorem Memory.put_wfFrom (m : Memory) (a : Nat) (v : Byte) (ha : a < Config.memSize) :
    ∀ lo, lo ≤ a → Memory.wfFrom lo m = true → Memory.wfFrom lo (Memory.put m a v) = true := by
  induction m with
  | nil =>
    intro lo hlo _
    unfold Memory.put
    split
    · rfl
    · rename_i hv
      simp [Memory.wfFrom, hlo, ha, hv]
  | cons c rest ih =>
    obtain ⟨ka, b⟩ := c
    intro lo hlo h
    have h' := h
    simp only [Memory.wfFrom, Bool.and_eq_true, decide_eq_true_eq] at h
    obtain ⟨h1, h2, h3, hr⟩ := h
    have hweak : ∀ (m : Memory) (lo lo' : Nat), lo' ≤ lo → Memory.wfFrom lo m = true → Memory.wfFrom lo' m = true := by
      intro m lo lo' hl hm
      cases m with
      | nil => rfl
      | cons d t =>
        obtain ⟨kd, bd⟩ := d
        simp only [Memory.wfFrom, Bool.and_eq_true, decide_eq_true_eq] at hm ⊢
        exact ⟨by omega, hm.2.1, hm.2.2.1, hm.2.2.2⟩
    unfold Memory.put
    split
    · rename_i hlt
      split
      · exact h'
      · rename_i hv
        simp only [Memory.wfFrom, Bool.and_eq_true, decide_eq_true_eq]
        exact ⟨hlo, ha, hv, by omega, h2, h3, hr⟩
    · split
      · rename_i _ he
        subst he
        split
        · exact hweak rest (a + 1) lo (by omega) hr
        · rename_i hv
          simp only [Memory.wfFrom, Bool.and_eq_true, decide_eq_true_eq]
          exact ⟨hlo, ha, hv, hr⟩
      · simp only [Memory.wfFrom, Bool.and_eq_true, decide_eq_true_eq]
        exact ⟨h1, h2, h3, ih (ka + 1) (by omega) hr⟩

/-- A write keeps the canonical form. -/
theorem Memory.write_wf (m : Memory) (a : Nat) (v : Byte) (h : m.wf = true) : (m.write a v).wf = true := by
  unfold Memory.write
  split
  · exact Memory.put_wfFrom m a v ‹_› 0 (Nat.zero_le a) h
  · exact h

/-- Reading after one write: the byte written at its address, and every other byte as before. -/
theorem Memory.read_write (m : Memory) (a k : Nat) (v : Byte) (h : m.wf = true) :
    (m.write a v).read k = if k = a ∧ a < 0x1000 then v else m.read k := by
  unfold Memory.write
  split
  · rename_i ha
    rw [Memory.read_put m a v k 0 h]
    simp only [Config.memSize] at ha
    simp [ha]
  · rename_i ha
    simp only [Config.memSize] at ha
    rw [if_neg (fun e => ha e.2)]

/-- Storing bytes keeps the canonical form. -/
theorem Memory.writeBytes_wf (bs : List Byte) :
    ∀ (m : Memory) (a : Nat), m.wf = true → (m.writeBytes a bs).wf = true := by
  induction bs with
  | nil => intro m a h; exact h
  | cons b bs ih => intro m a h; exact ih _ _ (Memory.write_wf m a b h)

/-- Reading after storing bytes at ascending addresses within memory. -/
theorem Memory.read_writeBytes (bs : List Byte) :
    ∀ (m : Memory) (a k : Nat), m.wf = true → a + bs.length ≤ 0x1000 →
      (m.writeBytes a bs).read k = if h : a ≤ k ∧ k - a < bs.length then bs[k - a]'h.2 else m.read k := by
  induction bs with
  | nil => intro m a k _ _; simp [Memory.writeBytes]
  | cons b bs ih =>
    intro m a k hm hr
    simp only [List.length_cons] at hr
    rw [Memory.writeBytes, ih _ (a + 1) k (Memory.write_wf m a b hm) (by omega), Memory.read_write m a k b hm]
    by_cases hk : k = a
    · subst hk
      rw [dif_neg (by omega), if_pos ⟨rfl, by omega⟩, dif_pos ⟨Nat.le_refl k, by simp⟩]
      simp
    · by_cases h1 : a + 1 ≤ k ∧ k - (a + 1) < bs.length
      · rw [dif_pos h1, dif_pos ⟨by omega, by simp only [List.length_cons]; omega⟩]
        have e : k - a = (k - (a + 1)) + 1 := by omega
        simp [e]
      · rw [dif_neg h1, dif_neg (by simp only [List.length_cons]; omega), if_neg (fun e => hk e.1)]

@[simp] theorem Memory.readBytes_length (m : Memory) (a n : Nat) : (m.readBytes a n).length = n := by
  induction n generalizing a with
  | zero => rfl
  | succ n ih => simp [Memory.readBytes, ih]

theorem Memory.readBytes_getElem (m : Memory) (n : Nat) :
    ∀ (a j : Nat) (h : j < (m.readBytes a n).length), (m.readBytes a n)[j] = m.read (a + j) := by
  induction n with
  | zero => intro a j h; simp [Memory.readBytes] at h
  | succ n ih =>
    intro a j h
    cases j with
    | zero => simp [Memory.readBytes]
    | succ j =>
      simp only [Memory.readBytes, List.getElem_cons_succ]
      rw [ih (a + 1) j]
      congr 1
      omega

/-- The range check of R51 in one inequality. -/
theorem accessible_iff (base n : Nat) : accessible base n = true ↔ n = 0 ∨ base + n ≤ 0x1000 := by
  simp only [accessible, Bool.or_eq_true, beq_iff_eq, decide_eq_true_eq]
  omega

end Sys2Proof.Machine
end

