-- ==== Sys2Proof/Laws/HostOps.lean ====
section
/-! SUPPORT. The host operations, said once. -/

namespace Sys2Proof.Machine

/-- A tick takes one from a timer and never goes below 0 (R230). -/
theorem tickTimer_toNat (b : Byte) : (tickTimer b).toNat = b.toNat - 1 := by
  unfold tickTimer
  split <;> bv_omega

/-- A ROM within the limit has no load fault (R341). -/
theorem loadFault_of_le {rom : List Byte} (h : rom.length ≤ 3584) : loadFault (.bytes rom) = none :=
  if_neg (by show ¬ 3584 < rom.length; omega)

/-- A ROM above the limit is oversize (R341). -/
theorem loadFault_of_lt {rom : List Byte} (h : 3584 < rom.length) :
    loadFault (.bytes rom) = some (.romLoadFailure .oversize rom.length) := if_pos h

theorem initialise_of_none {p : InitParams} {rom : RomImage} {s : State} (h : loadFault rom = none) :
    initialise p rom s = initialState p rom.contents s.rngDraws s.keyDraws := by rw [initialise, h]

theorem initialise_of_some {p : InitParams} {rom : RomImage} {s : State} {f : Fault} (h : loadFault rom = some f) :
    initialise p rom s = s.haltAt s.pc f := by rw [initialise, h]

/-- Memory after `initialize` keeps the canonical form of `INIT_MEMORY`. -/
theorem initMemory_wf (p : InitParams) (rom : List Byte) (h : p.memory.wf = true) : (initMemory p rom).wf = true :=
  Memory.writeBytes_wf _ _ _ (Memory.writeBytes_wf _ _ _ h)

/-- A byte after `initialize`: the font, the ROM, or `INIT_MEMORY` (R340). -/
theorem initMemory_read (p : InitParams) (rom : List Byte) (h : p.memory.wf = true) (hl : rom.length ≤ 3584) (a : Nat) :
    (initMemory p rom).read a =
      if hf : a < 80 then p.font[a]
      else if 0x200 ≤ a ∧ a - 0x200 < rom.length then rom.getD (a - 0x200) 0 else p.memory.read a := by
  have hw := Memory.writeBytes_wf rom p.memory Config.progBase h
  have hp : Config.progBase + rom.length ≤ 0x1000 := by simp only [Config.progBase]; omega
  unfold initMemory
  rw [Memory.read_writeBytes p.font.toList _ 0 a hw (by rw [Vector.length_toList]; omega),
    Memory.read_writeBytes rom p.memory Config.progBase a h hp]
  by_cases hf : a < 80
  · rw [dif_pos ⟨Nat.zero_le a, by rw [Vector.length_toList]; omega⟩, dif_pos hf]
    simp
  · rw [dif_neg (by rw [Vector.length_toList]; omega), dif_neg hf]
    by_cases hr : 0x200 ≤ a ∧ a - 0x200 < rom.length
    · rw [dif_pos hr, if_pos hr, List.getD_eq_getElem _ _ hr.2]
    · rw [dif_neg hr, if_neg hr]

end Sys2Proof.Machine
end

