-- ==== Sys2Proof/Laws/State.lean ====
section
/-! SUPPORT. What each update of the state does to each field, true by rfl, so that no proof unfolds an update. -/

namespace Sys2Proof.Machine

/-! ## setV -/

@[simp] theorem State.setV_v (s : State) (r : Reg) (b : Byte) : (s.setV r b).v = s.v.set r.val b r.isLt := rfl
@[simp] theorem State.setV_i (s : State) (r : Reg) (b : Byte) : (s.setV r b).i = s.i := rfl
@[simp] theorem State.setV_pc (s : State) (r : Reg) (b : Byte) : (s.setV r b).pc = s.pc := rfl
@[simp] theorem State.setV_sp (s : State) (r : Reg) (b : Byte) : (s.setV r b).sp = s.sp := rfl
@[simp] theorem State.setV_stack (s : State) (r : Reg) (b : Byte) : (s.setV r b).stack = s.stack := rfl
@[simp] theorem State.setV_dt (s : State) (r : Reg) (b : Byte) : (s.setV r b).dt = s.dt := rfl
@[simp] theorem State.setV_st (s : State) (r : Reg) (b : Byte) : (s.setV r b).st = s.st := rfl
@[simp] theorem State.setV_mem (s : State) (r : Reg) (b : Byte) : (s.setV r b).mem = s.mem := rfl
@[simp] theorem State.setV_disp (s : State) (r : Reg) (b : Byte) : (s.setV r b).disp = s.disp := rfl
@[simp] theorem State.setV_held (s : State) (r : Reg) (b : Byte) : (s.setV r b).held = s.held := rfl
@[simp] theorem State.setV_run (s : State) (r : Reg) (b : Byte) : (s.setV r b).run = s.run := rfl
@[simp] theorem State.setV_rngDraws (s : State) (r : Reg) (b : Byte) : (s.setV r b).rngDraws = s.rngDraws := rfl
@[simp] theorem State.setV_keyDraws (s : State) (r : Reg) (b : Byte) : (s.setV r b).keyDraws = s.keyDraws := rfl

/-! ## setI -/

@[simp] theorem State.setI_v (s : State) (w : Word) : (s.setI w).v = s.v := rfl
@[simp] theorem State.setI_i (s : State) (w : Word) : (s.setI w).i = w := rfl
@[simp] theorem State.setI_pc (s : State) (w : Word) : (s.setI w).pc = s.pc := rfl
@[simp] theorem State.setI_sp (s : State) (w : Word) : (s.setI w).sp = s.sp := rfl
@[simp] theorem State.setI_stack (s : State) (w : Word) : (s.setI w).stack = s.stack := rfl
@[simp] theorem State.setI_dt (s : State) (w : Word) : (s.setI w).dt = s.dt := rfl
@[simp] theorem State.setI_st (s : State) (w : Word) : (s.setI w).st = s.st := rfl
@[simp] theorem State.setI_mem (s : State) (w : Word) : (s.setI w).mem = s.mem := rfl
@[simp] theorem State.setI_disp (s : State) (w : Word) : (s.setI w).disp = s.disp := rfl
@[simp] theorem State.setI_held (s : State) (w : Word) : (s.setI w).held = s.held := rfl
@[simp] theorem State.setI_run (s : State) (w : Word) : (s.setI w).run = s.run := rfl
@[simp] theorem State.setI_rngDraws (s : State) (w : Word) : (s.setI w).rngDraws = s.rngDraws := rfl
@[simp] theorem State.setI_keyDraws (s : State) (w : Word) : (s.setI w).keyDraws = s.keyDraws := rfl

/-! ## setPc -/

@[simp] theorem State.setPc_v (s : State) (w : Word) : (s.setPc w).v = s.v := rfl
@[simp] theorem State.setPc_i (s : State) (w : Word) : (s.setPc w).i = s.i := rfl
@[simp] theorem State.setPc_pc (s : State) (w : Word) : (s.setPc w).pc = w := rfl
@[simp] theorem State.setPc_sp (s : State) (w : Word) : (s.setPc w).sp = s.sp := rfl
@[simp] theorem State.setPc_stack (s : State) (w : Word) : (s.setPc w).stack = s.stack := rfl
@[simp] theorem State.setPc_dt (s : State) (w : Word) : (s.setPc w).dt = s.dt := rfl
@[simp] theorem State.setPc_st (s : State) (w : Word) : (s.setPc w).st = s.st := rfl
@[simp] theorem State.setPc_mem (s : State) (w : Word) : (s.setPc w).mem = s.mem := rfl
@[simp] theorem State.setPc_disp (s : State) (w : Word) : (s.setPc w).disp = s.disp := rfl
@[simp] theorem State.setPc_held (s : State) (w : Word) : (s.setPc w).held = s.held := rfl
@[simp] theorem State.setPc_run (s : State) (w : Word) : (s.setPc w).run = s.run := rfl
@[simp] theorem State.setPc_rngDraws (s : State) (w : Word) : (s.setPc w).rngDraws = s.rngDraws := rfl
@[simp] theorem State.setPc_keyDraws (s : State) (w : Word) : (s.setPc w).keyDraws = s.keyDraws := rfl

/-! ## setDT -/

@[simp] theorem State.setDT_v (s : State) (b : Byte) : (s.setDT b).v = s.v := rfl
@[simp] theorem State.setDT_i (s : State) (b : Byte) : (s.setDT b).i = s.i := rfl
@[simp] theorem State.setDT_pc (s : State) (b : Byte) : (s.setDT b).pc = s.pc := rfl
@[simp] theorem State.setDT_sp (s : State) (b : Byte) : (s.setDT b).sp = s.sp := rfl
@[simp] theorem State.setDT_stack (s : State) (b : Byte) : (s.setDT b).stack = s.stack := rfl
@[simp] theorem State.setDT_dt (s : State) (b : Byte) : (s.setDT b).dt = b := rfl
@[simp] theorem State.setDT_st (s : State) (b : Byte) : (s.setDT b).st = s.st := rfl
@[simp] theorem State.setDT_mem (s : State) (b : Byte) : (s.setDT b).mem = s.mem := rfl
@[simp] theorem State.setDT_disp (s : State) (b : Byte) : (s.setDT b).disp = s.disp := rfl
@[simp] theorem State.setDT_held (s : State) (b : Byte) : (s.setDT b).held = s.held := rfl
@[simp] theorem State.setDT_run (s : State) (b : Byte) : (s.setDT b).run = s.run := rfl
@[simp] theorem State.setDT_rngDraws (s : State) (b : Byte) : (s.setDT b).rngDraws = s.rngDraws := rfl
@[simp] theorem State.setDT_keyDraws (s : State) (b : Byte) : (s.setDT b).keyDraws = s.keyDraws := rfl

/-! ## setST -/

@[simp] theorem State.setST_v (s : State) (b : Byte) : (s.setST b).v = s.v := rfl
@[simp] theorem State.setST_i (s : State) (b : Byte) : (s.setST b).i = s.i := rfl
@[simp] theorem State.setST_pc (s : State) (b : Byte) : (s.setST b).pc = s.pc := rfl
@[simp] theorem State.setST_sp (s : State) (b : Byte) : (s.setST b).sp = s.sp := rfl
@[simp] theorem State.setST_stack (s : State) (b : Byte) : (s.setST b).stack = s.stack := rfl
@[simp] theorem State.setST_dt (s : State) (b : Byte) : (s.setST b).dt = s.dt := rfl
@[simp] theorem State.setST_st (s : State) (b : Byte) : (s.setST b).st = b := rfl
@[simp] theorem State.setST_mem (s : State) (b : Byte) : (s.setST b).mem = s.mem := rfl
@[simp] theorem State.setST_disp (s : State) (b : Byte) : (s.setST b).disp = s.disp := rfl
@[simp] theorem State.setST_held (s : State) (b : Byte) : (s.setST b).held = s.held := rfl
@[simp] theorem State.setST_run (s : State) (b : Byte) : (s.setST b).run = s.run := rfl
@[simp] theorem State.setST_rngDraws (s : State) (b : Byte) : (s.setST b).rngDraws = s.rngDraws := rfl
@[simp] theorem State.setST_keyDraws (s : State) (b : Byte) : (s.setST b).keyDraws = s.keyDraws := rfl

/-! ## setRun -/

@[simp] theorem State.setRun_v (s : State) (r : RunState) : (s.setRun r).v = s.v := rfl
@[simp] theorem State.setRun_i (s : State) (r : RunState) : (s.setRun r).i = s.i := rfl
@[simp] theorem State.setRun_pc (s : State) (r : RunState) : (s.setRun r).pc = s.pc := rfl
@[simp] theorem State.setRun_sp (s : State) (r : RunState) : (s.setRun r).sp = s.sp := rfl
@[simp] theorem State.setRun_stack (s : State) (r : RunState) : (s.setRun r).stack = s.stack := rfl
@[simp] theorem State.setRun_dt (s : State) (r : RunState) : (s.setRun r).dt = s.dt := rfl
@[simp] theorem State.setRun_st (s : State) (r : RunState) : (s.setRun r).st = s.st := rfl
@[simp] theorem State.setRun_mem (s : State) (r : RunState) : (s.setRun r).mem = s.mem := rfl
@[simp] theorem State.setRun_disp (s : State) (r : RunState) : (s.setRun r).disp = s.disp := rfl
@[simp] theorem State.setRun_held (s : State) (r : RunState) : (s.setRun r).held = s.held := rfl
@[simp] theorem State.setRun_run (s : State) (r : RunState) : (s.setRun r).run = r := rfl
@[simp] theorem State.setRun_rngDraws (s : State) (r : RunState) : (s.setRun r).rngDraws = s.rngDraws := rfl
@[simp] theorem State.setRun_keyDraws (s : State) (r : RunState) : (s.setRun r).keyDraws = s.keyDraws := rfl

/-! ## setDisp -/

@[simp] theorem State.setDisp_v (s : State) (d : Display) : (s.setDisp d).v = s.v := rfl
@[simp] theorem State.setDisp_i (s : State) (d : Display) : (s.setDisp d).i = s.i := rfl
@[simp] theorem State.setDisp_pc (s : State) (d : Display) : (s.setDisp d).pc = s.pc := rfl
@[simp] theorem State.setDisp_sp (s : State) (d : Display) : (s.setDisp d).sp = s.sp := rfl
@[simp] theorem State.setDisp_stack (s : State) (d : Display) : (s.setDisp d).stack = s.stack := rfl
@[simp] theorem State.setDisp_dt (s : State) (d : Display) : (s.setDisp d).dt = s.dt := rfl
@[simp] theorem State.setDisp_st (s : State) (d : Display) : (s.setDisp d).st = s.st := rfl
@[simp] theorem State.setDisp_mem (s : State) (d : Display) : (s.setDisp d).mem = s.mem := rfl
@[simp] theorem State.setDisp_disp (s : State) (d : Display) : (s.setDisp d).disp = d := rfl
@[simp] theorem State.setDisp_held (s : State) (d : Display) : (s.setDisp d).held = s.held := rfl
@[simp] theorem State.setDisp_run (s : State) (d : Display) : (s.setDisp d).run = s.run := rfl
@[simp] theorem State.setDisp_rngDraws (s : State) (d : Display) : (s.setDisp d).rngDraws = s.rngDraws := rfl
@[simp] theorem State.setDisp_keyDraws (s : State) (d : Display) : (s.setDisp d).keyDraws = s.keyDraws := rfl

/-! ## storeBytes -/

@[simp] theorem State.storeBytes_v (s : State) (a : Nat) (bs : List Byte) : (s.storeBytes a bs).v = s.v := rfl
@[simp] theorem State.storeBytes_i (s : State) (a : Nat) (bs : List Byte) : (s.storeBytes a bs).i = s.i := rfl
@[simp] theorem State.storeBytes_pc (s : State) (a : Nat) (bs : List Byte) : (s.storeBytes a bs).pc = s.pc := rfl
@[simp] theorem State.storeBytes_sp (s : State) (a : Nat) (bs : List Byte) : (s.storeBytes a bs).sp = s.sp := rfl
@[simp] theorem State.storeBytes_stack (s : State) (a : Nat) (bs : List Byte) : (s.storeBytes a bs).stack = s.stack := rfl
@[simp] theorem State.storeBytes_dt (s : State) (a : Nat) (bs : List Byte) : (s.storeBytes a bs).dt = s.dt := rfl
@[simp] theorem State.storeBytes_st (s : State) (a : Nat) (bs : List Byte) : (s.storeBytes a bs).st = s.st := rfl
@[simp] theorem State.storeBytes_mem (s : State) (a : Nat) (bs : List Byte) : (s.storeBytes a bs).mem = s.mem.writeBytes a bs := rfl
@[simp] theorem State.storeBytes_disp (s : State) (a : Nat) (bs : List Byte) : (s.storeBytes a bs).disp = s.disp := rfl
@[simp] theorem State.storeBytes_held (s : State) (a : Nat) (bs : List Byte) : (s.storeBytes a bs).held = s.held := rfl
@[simp] theorem State.storeBytes_run (s : State) (a : Nat) (bs : List Byte) : (s.storeBytes a bs).run = s.run := rfl
@[simp] theorem State.storeBytes_rngDraws (s : State) (a : Nat) (bs : List Byte) : (s.storeBytes a bs).rngDraws = s.rngDraws := rfl
@[simp] theorem State.storeBytes_keyDraws (s : State) (a : Nat) (bs : List Byte) : (s.storeBytes a bs).keyDraws = s.keyDraws := rfl

/-! ## haltAt -/

@[simp] theorem State.haltAt_v (s : State) (a : Word) (f : Fault) : (s.haltAt a f).v = s.v := rfl
@[simp] theorem State.haltAt_i (s : State) (a : Word) (f : Fault) : (s.haltAt a f).i = s.i := rfl
@[simp] theorem State.haltAt_pc (s : State) (a : Word) (f : Fault) : (s.haltAt a f).pc = a := rfl
@[simp] theorem State.haltAt_sp (s : State) (a : Word) (f : Fault) : (s.haltAt a f).sp = s.sp := rfl
@[simp] theorem State.haltAt_stack (s : State) (a : Word) (f : Fault) : (s.haltAt a f).stack = s.stack := rfl
@[simp] theorem State.haltAt_dt (s : State) (a : Word) (f : Fault) : (s.haltAt a f).dt = s.dt := rfl
@[simp] theorem State.haltAt_st (s : State) (a : Word) (f : Fault) : (s.haltAt a f).st = s.st := rfl
@[simp] theorem State.haltAt_mem (s : State) (a : Word) (f : Fault) : (s.haltAt a f).mem = s.mem := rfl
@[simp] theorem State.haltAt_disp (s : State) (a : Word) (f : Fault) : (s.haltAt a f).disp = s.disp := rfl
@[simp] theorem State.haltAt_held (s : State) (a : Word) (f : Fault) : (s.haltAt a f).held = s.held := rfl
@[simp] theorem State.haltAt_run (s : State) (a : Word) (f : Fault) : (s.haltAt a f).run = .halted f := rfl
@[simp] theorem State.haltAt_rngDraws (s : State) (a : Word) (f : Fault) : (s.haltAt a f).rngDraws = s.rngDraws := rfl
@[simp] theorem State.haltAt_keyDraws (s : State) (a : Word) (f : Fault) : (s.haltAt a f).keyDraws = s.keyDraws := rfl

/-! ## advance -/

@[simp] theorem State.advance_v (s : State) : s.advance.v = s.v := rfl
@[simp] theorem State.advance_i (s : State) : s.advance.i = s.i := rfl
@[simp] theorem State.advance_pc (s : State) : s.advance.pc = s.pc + 2 := rfl
@[simp] theorem State.advance_sp (s : State) : s.advance.sp = s.sp := rfl
@[simp] theorem State.advance_stack (s : State) : s.advance.stack = s.stack := rfl
@[simp] theorem State.advance_dt (s : State) : s.advance.dt = s.dt := rfl
@[simp] theorem State.advance_st (s : State) : s.advance.st = s.st := rfl
@[simp] theorem State.advance_mem (s : State) : s.advance.mem = s.mem := rfl
@[simp] theorem State.advance_disp (s : State) : s.advance.disp = s.disp := rfl
@[simp] theorem State.advance_held (s : State) : s.advance.held = s.held := rfl
@[simp] theorem State.advance_run (s : State) : s.advance.run = s.run := rfl
@[simp] theorem State.advance_rngDraws (s : State) : s.advance.rngDraws = s.rngDraws := rfl
@[simp] theorem State.advance_keyDraws (s : State) : s.advance.keyDraws = s.keyDraws := rfl

/-! ## skip -/

@[simp] theorem State.skip_v (s : State) : s.skip.v = s.v := rfl
@[simp] theorem State.skip_i (s : State) : s.skip.i = s.i := rfl
@[simp] theorem State.skip_pc (s : State) : s.skip.pc = s.pc + 2 := rfl
@[simp] theorem State.skip_sp (s : State) : s.skip.sp = s.sp := rfl
@[simp] theorem State.skip_stack (s : State) : s.skip.stack = s.stack := rfl
@[simp] theorem State.skip_dt (s : State) : s.skip.dt = s.dt := rfl
@[simp] theorem State.skip_st (s : State) : s.skip.st = s.st := rfl
@[simp] theorem State.skip_mem (s : State) : s.skip.mem = s.mem := rfl
@[simp] theorem State.skip_disp (s : State) : s.skip.disp = s.disp := rfl
@[simp] theorem State.skip_held (s : State) : s.skip.held = s.held := rfl
@[simp] theorem State.skip_run (s : State) : s.skip.run = s.run := rfl
@[simp] theorem State.skip_rngDraws (s : State) : s.skip.rngDraws = s.rngDraws := rfl
@[simp] theorem State.skip_keyDraws (s : State) : s.skip.keyDraws = s.keyDraws := rfl

/-! ## drawByte -/

@[simp] theorem State.drawByte_v (s : State) : s.drawByte.2.v = s.v := rfl
@[simp] theorem State.drawByte_i (s : State) : s.drawByte.2.i = s.i := rfl
@[simp] theorem State.drawByte_pc (s : State) : s.drawByte.2.pc = s.pc := rfl
@[simp] theorem State.drawByte_sp (s : State) : s.drawByte.2.sp = s.sp := rfl
@[simp] theorem State.drawByte_stack (s : State) : s.drawByte.2.stack = s.stack := rfl
@[simp] theorem State.drawByte_dt (s : State) : s.drawByte.2.dt = s.dt := rfl
@[simp] theorem State.drawByte_st (s : State) : s.drawByte.2.st = s.st := rfl
@[simp] theorem State.drawByte_mem (s : State) : s.drawByte.2.mem = s.mem := rfl
@[simp] theorem State.drawByte_disp (s : State) : s.drawByte.2.disp = s.disp := rfl
@[simp] theorem State.drawByte_held (s : State) : s.drawByte.2.held = s.held := rfl
@[simp] theorem State.drawByte_run (s : State) : s.drawByte.2.run = s.run := rfl
@[simp] theorem State.drawByte_rngDraws (s : State) : s.drawByte.2.rngDraws = s.rngDraws + 1 := rfl
@[simp] theorem State.drawByte_keyDraws (s : State) : s.drawByte.2.keyDraws = s.keyDraws := rfl

/-! ## setFlagAndV -/

@[simp] theorem State.setFlagAndV_v (s : State) (f : Byte) (x : Reg) (b : Byte) : (s.setFlagAndV f x b).v = (s.v.set regF.val f regF.isLt).set x.val b x.isLt := rfl
@[simp] theorem State.setFlagAndV_i (s : State) (f : Byte) (x : Reg) (b : Byte) : (s.setFlagAndV f x b).i = s.i := rfl
@[simp] theorem State.setFlagAndV_pc (s : State) (f : Byte) (x : Reg) (b : Byte) : (s.setFlagAndV f x b).pc = s.pc := rfl
@[simp] theorem State.setFlagAndV_sp (s : State) (f : Byte) (x : Reg) (b : Byte) : (s.setFlagAndV f x b).sp = s.sp := rfl
@[simp] theorem State.setFlagAndV_stack (s : State) (f : Byte) (x : Reg) (b : Byte) : (s.setFlagAndV f x b).stack = s.stack := rfl
@[simp] theorem State.setFlagAndV_dt (s : State) (f : Byte) (x : Reg) (b : Byte) : (s.setFlagAndV f x b).dt = s.dt := rfl
@[simp] theorem State.setFlagAndV_st (s : State) (f : Byte) (x : Reg) (b : Byte) : (s.setFlagAndV f x b).st = s.st := rfl
@[simp] theorem State.setFlagAndV_mem (s : State) (f : Byte) (x : Reg) (b : Byte) : (s.setFlagAndV f x b).mem = s.mem := rfl
@[simp] theorem State.setFlagAndV_disp (s : State) (f : Byte) (x : Reg) (b : Byte) : (s.setFlagAndV f x b).disp = s.disp := rfl
@[simp] theorem State.setFlagAndV_held (s : State) (f : Byte) (x : Reg) (b : Byte) : (s.setFlagAndV f x b).held = s.held := rfl
@[simp] theorem State.setFlagAndV_run (s : State) (f : Byte) (x : Reg) (b : Byte) : (s.setFlagAndV f x b).run = s.run := rfl
@[simp] theorem State.setFlagAndV_rngDraws (s : State) (f : Byte) (x : Reg) (b : Byte) : (s.setFlagAndV f x b).rngDraws = s.rngDraws := rfl
@[simp] theorem State.setFlagAndV_keyDraws (s : State) (f : Byte) (x : Reg) (b : Byte) : (s.setFlagAndV f x b).keyDraws = s.keyDraws := rfl

/-! ## tick -/

@[simp] theorem tick_v (s : State) : (tick s).v = s.v := rfl
@[simp] theorem tick_i (s : State) : (tick s).i = s.i := rfl
@[simp] theorem tick_pc (s : State) : (tick s).pc = s.pc := rfl
@[simp] theorem tick_sp (s : State) : (tick s).sp = s.sp := rfl
@[simp] theorem tick_stack (s : State) : (tick s).stack = s.stack := rfl
@[simp] theorem tick_dt (s : State) : (tick s).dt = tickTimer s.dt := rfl
@[simp] theorem tick_st (s : State) : (tick s).st = tickTimer s.st := rfl
@[simp] theorem tick_mem (s : State) : (tick s).mem = s.mem := rfl
@[simp] theorem tick_disp (s : State) : (tick s).disp = s.disp := rfl
@[simp] theorem tick_held (s : State) : (tick s).held = s.held := rfl
@[simp] theorem tick_run (s : State) : (tick s).run = s.run := rfl
@[simp] theorem tick_rngDraws (s : State) : (tick s).rngDraws = s.rngDraws := rfl
@[simp] theorem tick_keyDraws (s : State) : (tick s).keyDraws = s.keyDraws := rfl

/-! ## setKeyState -/

@[simp] theorem setKeyState_v (k : Key) (p : Bool) (s : State) : (setKeyState k p s).v = s.v := rfl
@[simp] theorem setKeyState_i (k : Key) (p : Bool) (s : State) : (setKeyState k p s).i = s.i := rfl
@[simp] theorem setKeyState_pc (k : Key) (p : Bool) (s : State) : (setKeyState k p s).pc = s.pc := rfl
@[simp] theorem setKeyState_sp (k : Key) (p : Bool) (s : State) : (setKeyState k p s).sp = s.sp := rfl
@[simp] theorem setKeyState_stack (k : Key) (p : Bool) (s : State) : (setKeyState k p s).stack = s.stack := rfl
@[simp] theorem setKeyState_dt (k : Key) (p : Bool) (s : State) : (setKeyState k p s).dt = s.dt := rfl
@[simp] theorem setKeyState_st (k : Key) (p : Bool) (s : State) : (setKeyState k p s).st = s.st := rfl
@[simp] theorem setKeyState_mem (k : Key) (p : Bool) (s : State) : (setKeyState k p s).mem = s.mem := rfl
@[simp] theorem setKeyState_disp (k : Key) (p : Bool) (s : State) : (setKeyState k p s).disp = s.disp := rfl
@[simp] theorem setKeyState_held (k : Key) (p : Bool) (s : State) : (setKeyState k p s).held = s.held.set k.val p k.isLt := rfl
@[simp] theorem setKeyState_run (k : Key) (p : Bool) (s : State) : (setKeyState k p s).run = s.run := rfl
@[simp] theorem setKeyState_rngDraws (k : Key) (p : Bool) (s : State) : (setKeyState k p s).rngDraws = s.rngDraws := rfl
@[simp] theorem setKeyState_keyDraws (k : Key) (p : Bool) (s : State) : (setKeyState k p s).keyDraws = s.keyDraws := rfl

end Sys2Proof.Machine
end

