-- ==== Sys2Proof/Laws/Registers.lean ====
section
/-! SUPPORT. Reading a register after an update of the state, and the program-counter laws. -/

namespace Sys2Proof.Machine

theorem State.getV_setV (s : State) (x r : Reg) (b : Byte) : (s.setV x b).getV r = if r = x then b else s.getV r := by
  simp only [State.getV, State.setV, Vector.get_eq_getElem, Vector.getElem_set]
  by_cases h : r = x
  · simp [h]
  · have : x.val ≠ r.val := fun e => h (Fin.ext e.symm)
    simp [h, this]

@[simp] theorem State.getV_setV_self (s : State) (x : Reg) (b : Byte) : (s.setV x b).getV x = b := by
  simp [State.getV_setV]

theorem State.getV_setV_of_ne (s : State) {x r : Reg} (h : r ≠ x) (b : Byte) : (s.setV x b).getV r = s.getV r := by
  simp [State.getV_setV, h]

/-- `VF` is written before `V[x]`, so where `x` is `VF` the data result stands (R143). -/
theorem State.getV_setFlagAndV (s : State) (f : Byte) (x r : Reg) (b : Byte) :
    (s.setFlagAndV f x b).getV r = if r = x then b else if r = regF then f else s.getV r := by
  simp only [State.setFlagAndV, State.getV_setV]

@[simp] theorem State.getV_setI (s : State) (w : Word) (r : Reg) : (s.setI w).getV r = s.getV r := rfl
@[simp] theorem State.getV_setPc (s : State) (w : Word) (r : Reg) : (s.setPc w).getV r = s.getV r := rfl
@[simp] theorem State.getV_setDT (s : State) (b : Byte) (r : Reg) : (s.setDT b).getV r = s.getV r := rfl
@[simp] theorem State.getV_setST (s : State) (b : Byte) (r : Reg) : (s.setST b).getV r = s.getV r := rfl
@[simp] theorem State.getV_setRun (s : State) (q : RunState) (r : Reg) : (s.setRun q).getV r = s.getV r := rfl
@[simp] theorem State.getV_setDisp (s : State) (d : Display) (r : Reg) : (s.setDisp d).getV r = s.getV r := rfl
@[simp] theorem State.getV_storeBytes (s : State) (a : Nat) (bs : List Byte) (r : Reg) :
    (s.storeBytes a bs).getV r = s.getV r := rfl
@[simp] theorem State.getV_haltAt (s : State) (a : Word) (f : Fault) (r : Reg) : (s.haltAt a f).getV r = s.getV r := rfl
@[simp] theorem State.getV_advance (s : State) (r : Reg) : s.advance.getV r = s.getV r := rfl
@[simp] theorem State.getV_skip (s : State) (r : Reg) : s.skip.getV r = s.getV r := rfl
@[simp] theorem State.getV_drawByte (s : State) (r : Reg) : s.drawByte.2.getV r = s.getV r := rfl

/-- A conditional skip changes the program counter only, and by 2 or not at all (R15). -/
theorem State.skipIf_eq (s : State) (c : Bool) : s.skipIf c = s.setPc (if c then s.pc + 2 else s.pc) := by
  cases c <;> rfl

/-- Inside an instruction the instruction's address is the `pc` the step fetched at (R77). -/
@[simp] theorem State.instrAddr_advance (s : State) : s.advance.instrAddr = s.pc := by
  simp [State.instrAddr]

/-- A fault taken after the pre-advance leaves the state the step began with, but for `run` (R304). -/
@[simp] theorem State.haltAt_advance (s : State) (f : Fault) : s.advance.haltAt s.pc f = s.setRun (.halted f) := rfl

theorem State.haltAt_pc_eq (s : State) (f : Fault) : s.haltAt s.pc f = s.setRun (.halted f) := rfl

/-- Registers loaded from register `k` on (R205). -/
theorem State.getV_loadV (bs : List Byte) : ∀ (s : State) (k : Nat) (r : Reg),
    (s.loadV k bs).getV r = if h : k ≤ r.val ∧ r.val - k < bs.length then bs[r.val - k]'h.2 else s.getV r := by
  induction bs with
  | nil => intro s k r; simp [State.loadV]
  | cons b bs ih =>
    intro s k r
    rw [State.loadV, ih]
    have hr := r.isLt
    by_cases hk : r.val = k
    · subst hk
      have : (⟨r.val, hr⟩ : Reg) = r := rfl
      simp [hr]
    · by_cases h1 : k + 1 ≤ r.val ∧ r.val - (k + 1) < bs.length
      · have h2 : k ≤ r.val ∧ r.val - k < (b :: bs).length := by simp only [List.length_cons]; omega
        rw [dif_pos h1, dif_pos h2]
        have e : r.val - k = (r.val - (k + 1)) + 1 := by omega
        simp [e]
      · have h2 : ¬(k ≤ r.val ∧ r.val - k < (b :: bs).length) := by simp only [List.length_cons]; omega
        rw [dif_neg h1, dif_neg h2]
        split
        · rename_i h
          exact State.getV_setV_of_ne s (fun e => hk (by rw [e])) b
        · rfl

/-- Loading registers changes registers only (R205). -/
theorem State.loadV_frame (bs : List Byte) : ∀ (s : State) (k : Nat), s.loadV k bs = { s with v := (s.loadV k bs).v } := by
  induction bs with
  | nil => intro s k; rfl
  | cons b bs ih =>
    intro s k
    rw [State.loadV, ih]
    split <;> rfl

end Sys2Proof.Machine
end

