-- ==== Sys2Proof/Laws/Ops.lean ====
section
/-! SUPPORT. What each shared operation can do, said once. -/

namespace Sys2Proof.Machine

/-- `withAccess` goes on exactly when every access is within memory; else it takes the overrun (R51, R304). -/
theorem withAccess_cases (access : Access) (base n : Nat) (s : State) (go : Answer) :
    ((n = 0 ∨ base + n ≤ 0x1000) ∧ withAccess access base n s go = go) ∨
    ((n ≠ 0 ∧ 0x1000 < base + n) ∧
      withAccess access base n s go = .next (s.haltAt s.instrAddr (overrun access base s.instrAddr))) := by
  unfold withAccess
  by_cases h : accessible base n = true
  · exact .inl ⟨(accessible_iff base n).mp h, if_pos h⟩
  · refine .inr ⟨?_, if_neg h⟩
    rw [accessible_iff] at h
    omega

theorem withAccess_of_le (access : Access) (base n : Nat) (s : State) (go : Answer) (h : n = 0 ∨ base + n ≤ 0x1000) :
    withAccess access base n s go = go := by
  unfold withAccess
  rw [if_pos ((accessible_iff base n).mpr h)]

theorem withAccess_of_lt (access : Access) (base n : Nat) (s : State) (go : Answer) (h0 : n ≠ 0) (h : 0x1000 < base + n) :
    withAccess access base n s go = .next (s.haltAt s.instrAddr (overrun access base s.instrAddr)) := by
  unfold withAccess takeFault
  rw [if_neg]
  rw [accessible_iff]
  omega

/-- A push: none with a full stack, else the value on top and the depth one more (R26). -/
theorem State.push_cases (s : State) (w : Word) :
    (s.sp.val = 16 ∧ s.push w = none) ∨
    ∃ (h : s.sp.val < 16), s.push w = some { s with stack := s.stack.set s.sp.val w h, sp := ⟨s.sp.val + 1, by omega⟩ } := by
  unfold State.push
  by_cases h : s.sp.val < 16
  · exact .inr ⟨h, by rw [dif_pos h]⟩
  · exact .inl ⟨by omega, by rw [dif_neg h]⟩

/-- A pop: none with an empty stack, else the top and the depth one less (R26). -/
theorem State.pop_cases (s : State) :
    (s.sp.val = 0 ∧ s.pop = none) ∨
    ∃ (_ : 0 < s.sp.val), s.pop = some (s.stack.get ⟨s.sp.val - 1, by omega⟩, { s with sp := ⟨s.sp.val - 1, by omega⟩ }) := by
  unfold State.pop
  by_cases h : 0 < s.sp.val
  · exact .inr ⟨h, by rw [dif_pos h]⟩
  · exact .inl ⟨by omega, by rw [dif_neg h]⟩

theorem State.mem_heldKeys (s : State) (k : Key) : k ∈ s.heldKeys ↔ s.held.get k = true := by
  simp [State.heldKeys]

theorem chooseKey_mem (k : Key) (ks : List Key) (c : Nat) : chooseKey k ks c ∈ k :: ks := by
  unfold chooseKey
  split
  · simp
  · have h : c % (ks.length + 1) < (k :: ks).length := Nat.mod_lt _ (by simp)
    rw [List.getD_eq_getElem _ _ h]
    exact List.getElem_mem h

/-- `CurrentKey()` answers none exactly when no key is held, and else a held key, one draw later (R236). -/
theorem State.currentKey_cases (s : State) :
    ((∀ k, s.held.get k = false) ∧ s.currentKey = (none, s)) ∨
    ∃ k, s.held.get k = true ∧ s.currentKey = (some k, { s with keyDraws := s.keyDraws + 1 }) := by
  unfold State.currentKey
  split
  · rename_i h
    refine .inl ⟨fun k => ?_, rfl⟩
    have : k ∉ s.heldKeys := by simp [h]
    rwa [State.mem_heldKeys, Bool.not_eq_true] at this
  · rename_i k ks h
    refine .inr ⟨_, ?_, rfl⟩
    rw [← State.mem_heldKeys, h]
    exact chooseKey_mem k ks _

/-- Toggling a cell flips it and no other (R172). -/
theorem Display.cell_toggle (d : Display) (col c : Fin 64) (row r : Fin 32) :
    Display.cell (Display.toggle d col row) c r = if c = col ∧ r = row then !(Display.cell d c r) else Display.cell d c r := by
  simp only [Display.cell, Display.toggle, Vector.get_eq_getElem, Vector.getElem_set]
  have hc := col.isLt
  by_cases hr : r = row
  · subst hr
    simp only [if_true, BitVec.getLsbD_xor, BitVec.getLsbD_shiftLeft, and_true]
    by_cases h : c = col
    · subst h; simp
    · have hne : c.val ≠ col.val := fun e => h (Fin.ext e)
      have : ((1#64).getLsbD (c.val - col.val) && decide (¬ c.val < col.val)) = false := by
        by_cases hlt : c.val < col.val
        · simp [hlt]
        · have : c.val - col.val ≠ 0 := by omega
          simp [this]
      simp only [h, if_false]
      by_cases hlt : c.val < col.val
      · simp [hlt]
      · have : c.val - col.val ≠ 0 := by omega
        simp [this]
  · have : row.val ≠ r.val := fun e => hr (Fin.ext e.symm)
    simp [hr, this]

@[simp] theorem blankDisplay_cell (c : Fin 64) (r : Fin 32) : Display.cell blankDisplay c r = false := by
  simp [Display.cell, blankDisplay, Vector.get_eq_getElem]

end Sys2Proof.Machine
end

