-- ==== Sys2Proof/Laws/PerInstr.lean ====
section
/-! SUPPORT. The families of per-instruction laws LAWS.json names: every instruction is well formed (WellFormed), and every
instruction's word matches its own row of the opcode table (EncodesRow). -/

/-- The operand fields of an instruction lie in their ranges (spec/30_encoding.md R71). -/
def Sys2Proof.Laws.WellFormed.Statement (i : Sys2Proof.Instr) : Prop := i.wellFormed = true

/-- The encoder gives a word that matches the table row of the instruction's operation (R74, R75). -/
def Sys2Proof.Laws.EncodesRow.Statement (i : Sys2Proof.Instr) : Prop :=
  ∃ r ∈ Sys2Proof.opcodeRows, r.op = i.op ∧ r.admits (Sys2Proof.encode i) = true

namespace Sys2Proof

theorem mask_F000 (w : Word) : w &&& 0xF000#16 = (opH w ++ 0x000#12 : BitVec (4 + 12)) := by
  apply BitVec.eq_of_getLsbD_eq
  intro i hi
  simp only [opH, BitVec.getLsbD_and, BitVec.getLsbD_append, BitVec.getLsbD_extractLsb']
  interval_cases i <;> simp

theorem mask_F00F (w : Word) : w &&& 0xF00F#16 = (opH w ++ (0x00#8 ++ opN w) : BitVec (4 + (8 + 4))) := by
  apply BitVec.eq_of_getLsbD_eq
  intro i hi
  simp only [opH, opN, BitVec.getLsbD_and, BitVec.getLsbD_append, BitVec.getLsbD_extractLsb']
  interval_cases i <;> simp

theorem mask_F0FF (w : Word) : w &&& 0xF0FF#16 = (opH w ++ (0x0#4 ++ opKK w) : BitVec (4 + (4 + 8))) := by
  apply BitVec.eq_of_getLsbD_eq
  intro i hi
  simp only [opH, opKK, BitVec.getLsbD_and, BitVec.getLsbD_append, BitVec.getLsbD_extractLsb']
  interval_cases i <;> simp

end Sys2Proof

namespace Sys2Proof.Laws.WellFormed
open Sys2Proof

theorem cls : Statement (.cls) := rfl
theorem ret : Statement (.ret) := rfl
theorem jp (nnn : Addr12) : Statement (.jp nnn) := by
  have h : nnn.toNat < 0x1000 := nnn.isLt
  simp [Statement, Instr.wellFormed, Instr.fields, OperandKind.bound, h]
theorem call (nnn : Addr12) : Statement (.call nnn) := by
  have h : nnn.toNat < 0x1000 := nnn.isLt
  simp [Statement, Instr.wellFormed, Instr.fields, OperandKind.bound, h]
theorem seImm (x : Reg) (kk : Byte) : Statement (.seImm x kk) := by
  have h : kk.toNat < 0x100 := kk.isLt
  simp [Statement, Instr.wellFormed, Instr.fields, OperandKind.bound, h]
theorem sneImm (x : Reg) (kk : Byte) : Statement (.sneImm x kk) := by
  have h : kk.toNat < 0x100 := kk.isLt
  simp [Statement, Instr.wellFormed, Instr.fields, OperandKind.bound, h]
theorem seReg (x : Reg) (y : Reg) : Statement (.seReg x y) := by
  simp [Statement, Instr.wellFormed, Instr.fields, OperandKind.bound]
theorem ldImm (x : Reg) (kk : Byte) : Statement (.ldImm x kk) := by
  have h : kk.toNat < 0x100 := kk.isLt
  simp [Statement, Instr.wellFormed, Instr.fields, OperandKind.bound, h]
theorem addImm (x : Reg) (kk : Byte) : Statement (.addImm x kk) := by
  have h : kk.toNat < 0x100 := kk.isLt
  simp [Statement, Instr.wellFormed, Instr.fields, OperandKind.bound, h]
theorem ldReg (x : Reg) (y : Reg) : Statement (.ldReg x y) := by
  simp [Statement, Instr.wellFormed, Instr.fields, OperandKind.bound]
theorem orReg (x : Reg) (y : Reg) : Statement (.orReg x y) := by
  simp [Statement, Instr.wellFormed, Instr.fields, OperandKind.bound]
theorem andReg (x : Reg) (y : Reg) : Statement (.andReg x y) := by
  simp [Statement, Instr.wellFormed, Instr.fields, OperandKind.bound]
theorem xorReg (x : Reg) (y : Reg) : Statement (.xorReg x y) := by
  simp [Statement, Instr.wellFormed, Instr.fields, OperandKind.bound]
theorem addReg (x : Reg) (y : Reg) : Statement (.addReg x y) := by
  simp [Statement, Instr.wellFormed, Instr.fields, OperandKind.bound]
theorem subReg (x : Reg) (y : Reg) : Statement (.subReg x y) := by
  simp [Statement, Instr.wellFormed, Instr.fields, OperandKind.bound]
theorem shr (x : Reg) (y : Reg) : Statement (.shr x y) := by
  simp [Statement, Instr.wellFormed, Instr.fields, OperandKind.bound]
theorem subnReg (x : Reg) (y : Reg) : Statement (.subnReg x y) := by
  simp [Statement, Instr.wellFormed, Instr.fields, OperandKind.bound]
theorem shl (x : Reg) (y : Reg) : Statement (.shl x y) := by
  simp [Statement, Instr.wellFormed, Instr.fields, OperandKind.bound]
theorem sneReg (x : Reg) (y : Reg) : Statement (.sneReg x y) := by
  simp [Statement, Instr.wellFormed, Instr.fields, OperandKind.bound]
theorem ldI (nnn : Addr12) : Statement (.ldI nnn) := by
  have h : nnn.toNat < 0x1000 := nnn.isLt
  simp [Statement, Instr.wellFormed, Instr.fields, OperandKind.bound, h]
theorem jpV0 (nnn : Addr12) : Statement (.jpV0 nnn) := by
  have h : nnn.toNat < 0x1000 := nnn.isLt
  simp [Statement, Instr.wellFormed, Instr.fields, OperandKind.bound, h]
theorem rnd (x : Reg) (kk : Byte) : Statement (.rnd x kk) := by
  have h : kk.toNat < 0x100 := kk.isLt
  simp [Statement, Instr.wellFormed, Instr.fields, OperandKind.bound, h]
theorem drw (x : Reg) (y : Reg) (n : Rows) : Statement (.drw x y n) := by
  simp [Statement, Instr.wellFormed, Instr.fields, OperandKind.bound]
theorem skp (x : Reg) : Statement (.skp x) := by
  simp [Statement, Instr.wellFormed, Instr.fields, OperandKind.bound]
theorem sknp (x : Reg) : Statement (.sknp x) := by
  simp [Statement, Instr.wellFormed, Instr.fields, OperandKind.bound]
theorem ldVxDT (x : Reg) : Statement (.ldVxDT x) := by
  simp [Statement, Instr.wellFormed, Instr.fields, OperandKind.bound]
theorem ldVxK (x : Reg) : Statement (.ldVxK x) := by
  simp [Statement, Instr.wellFormed, Instr.fields, OperandKind.bound]
theorem ldDTVx (x : Reg) : Statement (.ldDTVx x) := by
  simp [Statement, Instr.wellFormed, Instr.fields, OperandKind.bound]
theorem ldSTVx (x : Reg) : Statement (.ldSTVx x) := by
  simp [Statement, Instr.wellFormed, Instr.fields, OperandKind.bound]
theorem addI (x : Reg) : Statement (.addI x) := by
  simp [Statement, Instr.wellFormed, Instr.fields, OperandKind.bound]
theorem ldF (x : Reg) : Statement (.ldF x) := by
  simp [Statement, Instr.wellFormed, Instr.fields, OperandKind.bound]
theorem ldB (x : Reg) : Statement (.ldB x) := by
  simp [Statement, Instr.wellFormed, Instr.fields, OperandKind.bound]
theorem stRegs (x : Reg) : Statement (.stRegs x) := by
  simp [Statement, Instr.wellFormed, Instr.fields, OperandKind.bound]
theorem ldRegs (x : Reg) : Statement (.ldRegs x) := by
  simp [Statement, Instr.wellFormed, Instr.fields, OperandKind.bound]

end Sys2Proof.Laws.WellFormed

namespace Sys2Proof.Laws.EncodesRow
open Sys2Proof

theorem cls : Statement (.cls) :=
  ⟨⟨.cls, 0xFFFF, 0x00E0⟩, by decide, rfl, by decide⟩
theorem ret : Statement (.ret) :=
  ⟨⟨.ret, 0xFFFF, 0x00EE⟩, by decide, rfl, by decide⟩
theorem jp (nnn : Addr12) : Statement (.jp nnn) :=
  ⟨⟨.jp, 0xF000, 0x1000⟩, by decide, rfl, by simp [OpcodeRow.admits, encode, mask_F000]⟩
theorem call (nnn : Addr12) : Statement (.call nnn) :=
  ⟨⟨.call, 0xF000, 0x2000⟩, by decide, rfl, by simp [OpcodeRow.admits, encode, mask_F000]⟩
theorem seImm (x : Reg) (kk : Byte) : Statement (.seImm x kk) :=
  ⟨⟨.seImm, 0xF000, 0x3000⟩, by decide, rfl, by simp [OpcodeRow.admits, encode, mask_F000]⟩
theorem sneImm (x : Reg) (kk : Byte) : Statement (.sneImm x kk) :=
  ⟨⟨.sneImm, 0xF000, 0x4000⟩, by decide, rfl, by simp [OpcodeRow.admits, encode, mask_F000]⟩
theorem seReg (x : Reg) (y : Reg) : Statement (.seReg x y) :=
  ⟨⟨.seReg, 0xF00F, 0x5000⟩, by decide, rfl, by simp [OpcodeRow.admits, encode, mask_F00F]⟩
theorem ldImm (x : Reg) (kk : Byte) : Statement (.ldImm x kk) :=
  ⟨⟨.ldImm, 0xF000, 0x6000⟩, by decide, rfl, by simp [OpcodeRow.admits, encode, mask_F000]⟩
theorem addImm (x : Reg) (kk : Byte) : Statement (.addImm x kk) :=
  ⟨⟨.addImm, 0xF000, 0x7000⟩, by decide, rfl, by simp [OpcodeRow.admits, encode, mask_F000]⟩
theorem ldReg (x : Reg) (y : Reg) : Statement (.ldReg x y) :=
  ⟨⟨.ldReg, 0xF00F, 0x8000⟩, by decide, rfl, by simp [OpcodeRow.admits, encode, mask_F00F]⟩
theorem orReg (x : Reg) (y : Reg) : Statement (.orReg x y) :=
  ⟨⟨.orReg, 0xF00F, 0x8001⟩, by decide, rfl, by simp [OpcodeRow.admits, encode, mask_F00F]⟩
theorem andReg (x : Reg) (y : Reg) : Statement (.andReg x y) :=
  ⟨⟨.andReg, 0xF00F, 0x8002⟩, by decide, rfl, by simp [OpcodeRow.admits, encode, mask_F00F]⟩
theorem xorReg (x : Reg) (y : Reg) : Statement (.xorReg x y) :=
  ⟨⟨.xorReg, 0xF00F, 0x8003⟩, by decide, rfl, by simp [OpcodeRow.admits, encode, mask_F00F]⟩
theorem addReg (x : Reg) (y : Reg) : Statement (.addReg x y) :=
  ⟨⟨.addReg, 0xF00F, 0x8004⟩, by decide, rfl, by simp [OpcodeRow.admits, encode, mask_F00F]⟩
theorem subReg (x : Reg) (y : Reg) : Statement (.subReg x y) :=
  ⟨⟨.subReg, 0xF00F, 0x8005⟩, by decide, rfl, by simp [OpcodeRow.admits, encode, mask_F00F]⟩
theorem shr (x : Reg) (y : Reg) : Statement (.shr x y) :=
  ⟨⟨.shr, 0xF00F, 0x8006⟩, by decide, rfl, by simp [OpcodeRow.admits, encode, mask_F00F]⟩
theorem subnReg (x : Reg) (y : Reg) : Statement (.subnReg x y) :=
  ⟨⟨.subnReg, 0xF00F, 0x8007⟩, by decide, rfl, by simp [OpcodeRow.admits, encode, mask_F00F]⟩
theorem shl (x : Reg) (y : Reg) : Statement (.shl x y) :=
  ⟨⟨.shl, 0xF00F, 0x800E⟩, by decide, rfl, by simp [OpcodeRow.admits, encode, mask_F00F]⟩
theorem sneReg (x : Reg) (y : Reg) : Statement (.sneReg x y) :=
  ⟨⟨.sneReg, 0xF00F, 0x9000⟩, by decide, rfl, by simp [OpcodeRow.admits, encode, mask_F00F]⟩
theorem ldI (nnn : Addr12) : Statement (.ldI nnn) :=
  ⟨⟨.ldI, 0xF000, 0xA000⟩, by decide, rfl, by simp [OpcodeRow.admits, encode, mask_F000]⟩
theorem jpV0 (nnn : Addr12) : Statement (.jpV0 nnn) :=
  ⟨⟨.jpV0, 0xF000, 0xB000⟩, by decide, rfl, by simp [OpcodeRow.admits, encode, mask_F000]⟩
theorem rnd (x : Reg) (kk : Byte) : Statement (.rnd x kk) :=
  ⟨⟨.rnd, 0xF000, 0xC000⟩, by decide, rfl, by simp [OpcodeRow.admits, encode, mask_F000]⟩
theorem drw (x : Reg) (y : Reg) (n : Rows) : Statement (.drw x y n) :=
  ⟨⟨.drw, 0xF000, 0xD000⟩, by decide, rfl, by simp [OpcodeRow.admits, encode, mask_F000]⟩
theorem skp (x : Reg) : Statement (.skp x) :=
  ⟨⟨.skp, 0xF0FF, 0xE09E⟩, by decide, rfl, by simp [OpcodeRow.admits, encode, mask_F0FF]⟩
theorem sknp (x : Reg) : Statement (.sknp x) :=
  ⟨⟨.sknp, 0xF0FF, 0xE0A1⟩, by decide, rfl, by simp [OpcodeRow.admits, encode, mask_F0FF]⟩
theorem ldVxDT (x : Reg) : Statement (.ldVxDT x) :=
  ⟨⟨.ldVxDT, 0xF0FF, 0xF007⟩, by decide, rfl, by simp [OpcodeRow.admits, encode, mask_F0FF]⟩
theorem ldVxK (x : Reg) : Statement (.ldVxK x) :=
  ⟨⟨.ldVxK, 0xF0FF, 0xF00A⟩, by decide, rfl, by simp [OpcodeRow.admits, encode, mask_F0FF]⟩
theorem ldDTVx (x : Reg) : Statement (.ldDTVx x) :=
  ⟨⟨.ldDTVx, 0xF0FF, 0xF015⟩, by decide, rfl, by simp [OpcodeRow.admits, encode, mask_F0FF]⟩
theorem ldSTVx (x : Reg) : Statement (.ldSTVx x) :=
  ⟨⟨.ldSTVx, 0xF0FF, 0xF018⟩, by decide, rfl, by simp [OpcodeRow.admits, encode, mask_F0FF]⟩
theorem addI (x : Reg) : Statement (.addI x) :=
  ⟨⟨.addI, 0xF0FF, 0xF01E⟩, by decide, rfl, by simp [OpcodeRow.admits, encode, mask_F0FF]⟩
theorem ldF (x : Reg) : Statement (.ldF x) :=
  ⟨⟨.ldF, 0xF0FF, 0xF029⟩, by decide, rfl, by simp [OpcodeRow.admits, encode, mask_F0FF]⟩
theorem ldB (x : Reg) : Statement (.ldB x) :=
  ⟨⟨.ldB, 0xF0FF, 0xF033⟩, by decide, rfl, by simp [OpcodeRow.admits, encode, mask_F0FF]⟩
theorem stRegs (x : Reg) : Statement (.stRegs x) :=
  ⟨⟨.stRegs, 0xF0FF, 0xF055⟩, by decide, rfl, by simp [OpcodeRow.admits, encode, mask_F0FF]⟩
theorem ldRegs (x : Reg) : Statement (.ldRegs x) :=
  ⟨⟨.ldRegs, 0xF0FF, 0xF065⟩, by decide, rfl, by simp [OpcodeRow.admits, encode, mask_F0FF]⟩

end Sys2Proof.Laws.EncodesRow
end

