-- ==== Sys2Proof/Laws/Safety.lean ====
section
/-! SUPPORT. What the safety predicates say in terms of the shared operations. -/

namespace Sys2Proof.Machine

/-- An instruction reaches beyond memory exactly when the range check of its accesses fails (R51). -/
theorem reachesBeyond_iff (s : State) (i : Instr) :
    ReachesBeyond s i ↔ accessible s.i.toNat (accessSpan i) = false := by
  rw [← Bool.not_eq_true, accessible_iff, ReachesBeyond]
  omega

/-- Every cell is as before where the display is the same. -/
theorem keepsDisplay_of_eq {s t : State} (h : t.disp = s.disp) : KeepsDisplay s t := fun col row => by
  rw [State.pixel, State.pixel, h]

/-- Every byte reads as before where memory is the same list. -/
theorem keepsMemory_of_eq {s t : State} (h : t.mem = s.mem) : KeepsMemory s t := fun a => by
  rw [State.byteAt, State.byteAt, h]

end Sys2Proof.Machine
end

