-- ==== Sys2Proof/Laws/Step.lean ====
section
/-! SUPPORT. The step cycle, the fetch and the placing of a word, said once. -/

namespace Sys2Proof.Machine

theorem step_running {s : State} (h : s.run = .running) : step s = runCycle s := by rw [step, h]; rfl
theorem step_awaiting {s : State} {x : Reg} (h : s.run = .awaitingKey x) : step s = pollKey x s := by rw [step, h]; rfl
theorem step_halted {s : State} {f : Fault} (h : s.run = .halted f) : step s = .next s := by rw [step, h]; rfl

/-- A fetch within memory reads the word at `pc` (R77). -/
theorem fetch_of_le {s : State} (h : s.pc.toNat ≤ 0xFFE) : fetch s = .ok (s.wordAt s.pc.toNat) := if_neg (by omega)

/-- A fetch beyond memory is the overrun of R77. -/
theorem fetch_of_lt {s : State} (h : 0xFFE < s.pc.toNat) :
    fetch s = .error (.addressOverrun .fetch (if s.pc.toNat = 0xFFF then s.pc.toNat + 1 else s.pc.toNat) s.pc) :=
  if_pos (by omega)

/-- A cycle whose word decodes executes the instruction with `pc` advanced (R77). -/
theorem runCycle_of_instr {s : State} {i : Instr} (h : s.pc.toNat ≤ 0xFFE)
    (hd : decode (s.wordAt s.pc.toNat) = .instr i) : runCycle s = exec i s.advance := by
  simp only [runCycle, fetch_of_le h, hd]

/-- A cycle whose word is illegal takes the decode fault (R78). -/
theorem runCycle_of_illegal {s : State} {w : Word} (h : s.pc.toNat ≤ 0xFFE)
    (hd : decode (s.wordAt s.pc.toNat) = .illegal w) : runCycle s = takeFault s.pc (.decodeError w s.pc) s := by
  simp only [runCycle, fetch_of_le h, hd]

/-- The address a placed word goes to. -/
theorem placeWord_pc (s : State) (w : Word) : (placeWord s w).pc = if s.pc.toNat + 1 > 0xFFF then 0x200#16 else s.pc := rfl

theorem placeWord_pc_le (s : State) (w : Word) : (placeWord s w).pc.toNat ≤ 0xFFE := by
  rw [placeWord_pc]
  split
  · decide
  · omega

@[simp] theorem placeWord_run (s : State) (w : Word) : (placeWord s w).run = .running := rfl

/-- A placed word is the word a fetch reads. -/
theorem placeWord_wordAt (s : State) (w : Word) (h : s.mem.wf = true) :
    (placeWord s w).wordAt (placeWord s w).pc.toNat = w := by
  have hb : ∀ a, (placeWord s w).byteAt a = _ := fun a =>
    Memory.read_writeBytes [hiByte w, loByte w] s.mem (placeWord s w).pc.toNat a h (by
      have := placeWord_pc_le s w
      simp only [List.length_cons, List.length_nil]
      omega)
  unfold State.wordAt
  rw [hb, hb, dif_pos (by simp), dif_pos (by simp)]
  simp

/-- The table's word of an encoded instruction is its encoding. -/
theorem tableWord_toNat (w : Word) : tableWord 16 w.toNat = w := by
  apply BitVec.eq_of_toNat_eq
  rw [tableWord, BitVec.toNat_ofNat]
  have := w.isLt
  omega

end Sys2Proof.Machine
end

