-- ==== Sys2Proof/Tests/Slice0.lean ====
section
/-! SUPPORT. Tests of the model against spec/95_test_vectors.md (each names its vector) and the words of spec/30_encoding.md, and
a witness for the hypotheses of every obligation that has some. -/

namespace Sys2Proof.Machine

/-! ## Helpers -/

/-- Registers set on the reset state. -/
def startWith (regs : List (Reg × Byte)) : State := regs.foldl (fun s r => s.setV r.1 r.2) State.reset

/-- The one step of an instruction's word placed at `pc`. -/
def after (w : Nat) (s : State) : Option State :=
  match step (s.withFetchWord 16 w) with
  | .next t => some t
  | _ => none

/-- The registers of a list, read after one step. -/
def regsAfter (w : Nat) (s : State) (rs : List Reg) : Option (List Byte) := (after w s).map fun t => rs.map t.getV

/-- `pc` after one step. -/
def pcAfter (w : Nat) (s : State) : Option Word := (after w s).map State.pc

/-- The run state after one step. -/
def runAfter (w : Nat) (s : State) : Option RunState := (after w s).map State.run

/-- The bytes at an address, read after one step. -/
def bytesAfter (w : Nat) (s : State) (a n : Nat) : Option (List Byte) := (after w s).map fun t => t.bytesAt a n

/-- The lit cells of some columns and rows, `(column, row)`. -/
def litIn (d : Display) (cols : List (Fin 64)) (rows : List (Fin 32)) : List (Fin 64 × Fin 32) :=
  (rows.flatMap fun r => cols.map fun c => (c, r)).filter fun p => Display.cell d p.1 p.2

/-- What a step that answers a next state leaves, whatever it answers. -/
def NextState (o : Answer) : Prop := ∃ t, o = .next t

/-! ## Listings: each check of `Line.wellFormed` refuses (R71, R81) -/

theorem test_line_well_formed : (Line.mk .drw [15, 15, 15]).assemble = some (.drw 15 15 15) := by decide
theorem test_line_shift_gets_y_zero : (Line.mk .shr [3]).assemble = some (.shr 3 0) := by decide
theorem test_line_missing_operand : (Line.mk .addReg [1]).assemble = none := by decide
theorem test_line_extra_operand : (Line.mk .cls [0]).assemble = none := by decide
theorem test_line_shift_with_two_operands : (Line.mk .shl [3, 4]).assemble = none := by decide
theorem test_line_register_out_of_range : (Line.mk .skp [16]).assemble = none := by decide
theorem test_line_second_register_out_of_range : (Line.mk .seReg [0, 16]).assemble = none := by decide
theorem test_line_immediate_out_of_range : (Line.mk .ldImm [0, 256]).assemble = none := by decide
theorem test_line_address_out_of_range : (Line.mk .jp [4096]).assemble = none := by decide
theorem test_line_rows_out_of_range : (Line.mk .drw [0, 0, 16]).assemble = none := by decide

/-! ## Decoding: words written out from the patterns of R75 -/

theorem test_decode_family_0 :
    [0x00E0, 0x00EE].map (decodeTableWord 16) =
      [some (.cls), some (.ret)] := by decide

theorem test_decode_families_1_2 :
    [0x1ABC, 0x2DEF].map (decodeTableWord 16) =
      [some (.jp 0xABC#12), some (.call 0xDEF#12)] := by decide

theorem test_decode_families_3_to_7 :
    [0x3A5C, 0x4BC3, 0x5AB0, 0x6C81, 0x7D18].map (decodeTableWord 16) =
      [some (.seImm 10 0x5C#8), some (.sneImm 11 0xC3#8), some (.seReg 10 11), some (.ldImm 12 0x81#8), some
       (.addImm 13 0x18#8)] := by decide

theorem test_decode_family_8 :
    [0x81A0, 0x82B1, 0x83C2, 0x84D3, 0x85E4, 0x86F5, 0x8706, 0x8917, 0x8A2E].map (decodeTableWord 16) =
      [some (.ldReg 1 10), some (.orReg 2 11), some (.andReg 3 12), some (.xorReg 4 13), some (.addReg 5 14), some
       (.subReg 6 15), some (.shr 7 0), some (.subnReg 9 1), some (.shl 10 2)] := by decide

theorem test_decode_families_9_to_D :
    [0x9CD0, 0xA2F0, 0xB300, 0xC30F, 0xDABC].map (decodeTableWord 16) =
      [some (.sneReg 12 13), some (.ldI 0x2F0#12), some (.jpV0 0x300#12), some (.rnd 3 0x0F#8), some (.drw 10 11
       12)] := by decide

theorem test_decode_family_E :
    [0xE59E, 0xE6A1].map (decodeTableWord 16) =
      [some (.skp 5), some (.sknp 6)] := by decide

theorem test_decode_family_F :
    [0xF107, 0xF20A, 0xF315, 0xF418, 0xF51E, 0xF629, 0xF733, 0xF855, 0xF965].map (decodeTableWord 16) =
      [some (.ldVxDT 1), some (.ldVxK 2), some (.ldDTVx 3), some (.ldSTVx 4), some (.addI 5), some (.ldF 6), some
       (.ldB 7), some (.stRegs 8), some (.ldRegs 9)] := by decide

/-- Vectors D2 to D7: illegal words beside the patterns. -/
theorem test_decode_illegal_words :
    ([0x0000, 0x00E1, 0x01E0, 0x0FFF, 0x00EF, 0x5121, 0x9121, 0x8128, 0x812F, 0xE09F, 0xE0A0, 0xF000, 0xF0FF, 0xF066].map
      (decodeTableWord 16)).all Option.isNone = true := by decide

/-- Row by row, the table's word of the match bits alone decodes to the row's operation. -/
theorem test_decode_table_patterns :
    (opcodeRows.all fun r => ((decodeTableWord 16 r.pattern.toNat).map Instr.op) == some r.op) = true := by decide

/-! ## The step cycle and faults -/

/-- D9 and D1: the last fetch of memory, and the decode fault with `pc` unchanged. -/
theorem test_fetch_at_the_last_word : pcAfter 0x1200 (State.reset.setPc 0xFFE) = some 0x200#16 := by decide
theorem test_decode_fault : runAfter 0x0000 State.reset = some (.halted (.decodeError 0x0000#16 0x200#16)) := by decide

/-- D10 and D11: a fetch at 0xFFF and at 0x1000 reports address 0x1000. -/
theorem test_fetch_overrun :
    step (State.reset.setPc 0xFFF) =
      .next ((State.reset.setPc 0xFFF).setRun (.halted (.addressOverrun .fetch 0x1000 0xFFF#16))) ∧
    step (State.reset.setPc 0x1000) =
      .next ((State.reset.setPc 0x1000).setRun (.halted (.addressOverrun .fetch 0x1000 0x1000#16))) := ⟨rfl, rfl⟩

/-- The placing of a word gives its instruction to the next step, at either end of memory. -/
theorem test_placed_word : (after 0x6A55 State.reset).map (fun t => t.getV 10) = some 0x55#8 := by decide
theorem test_placed_word_beyond_memory : pcAfter 0x6A55 (State.reset.setPc 0xFFFF) = some 0x202#16 := by decide

/-! ## Control (vectors C1 to C13) -/

theorem test_ret_underflow : runAfter 0x00EE State.reset = some (.halted (.stackUnderflow .pop 0 0x200#16)) := by decide
theorem test_ret_pops :
    (after 0x00EE { State.reset with sp := 2, stack := State.reset.stack.set 1 0x345 }).map (fun t => (t.pc, t.sp)) =
      some (0x345#16, 1) := by decide
theorem test_call_overflow :
    (after 0x2300 { State.reset with sp := 16 }).map (fun t => (t.pc, t.sp, t.run)) =
      some (0x200#16, 16, .halted (.stackOverflow .push 16 0x200#16)) := by decide
theorem test_call_pushes :
    (after 0x2300 { State.reset with sp := 15 }).map (fun t => (t.pc, t.sp, t.stack.get 15)) =
      some (0x300#16, 16, 0x202#16) := by decide
theorem test_jp : pcAfter 0x1FFF State.reset = some 0xFFF#16 := by decide
theorem test_jp_v0_no_wrap_at_memory : pcAfter 0xBFFF (startWith [(0, 0xFF)]) = some 0x10FE#16 := by decide
theorem test_jp_v0_is_always_v0 : pcAfter 0xB533 (startWith [(5, 0x33)]) = some 0x533#16 := by decide
theorem test_se_imm : [0x3310, 0x3311].map (fun w => pcAfter w (startWith [(3, 0x10)])) = [some 0x204#16, some 0x202#16] := by
  decide
theorem test_sne_imm : [0x4310, 0x4311].map (fun w => pcAfter w (startWith [(3, 0x10)])) = [some 0x202#16, some 0x204#16] := by
  decide
theorem test_se_sne_reg_equal :
    [0x5120, 0x9120].map (fun w => pcAfter w (startWith [(1, 7), (2, 7)])) = [some 0x204#16, some 0x202#16] := by decide
theorem test_se_sne_reg_different :
    [0x5120, 0x9120].map (fun w => pcAfter w (startWith [(1, 7), (2, 8)])) = [some 0x202#16, some 0x204#16] := by decide

/-! ## Arithmetic and logic (vectors A1 to A23) -/

theorem test_ld_imm : regsAfter 0x6FA5 State.reset [15, 0] = some [0xA5#8, 0#8] := by decide
theorem test_add_imm_no_carry : regsAfter 0x7001 (startWith [(0, 0xFF), (15, 1)]) [0, 15] = some [0#8, 1#8] := by decide
theorem test_ld_reg_into_vf : regsAfter 0x8F20 (startWith [(2, 0x99)]) [15, 2] = some [0x99#8, 0x99#8] := by decide
theorem test_or_keeps_vf :
    regsAfter 0x8121 (startWith [(1, 0x0F), (2, 0xF0), (15, 1)]) [1, 2, 15] = some [0xFF#8, 0xF0#8, 1#8] := by decide
theorem test_and : regsAfter 0x8122 (startWith [(1, 0x3C), (2, 0x0F), (15, 1)]) [1, 15] = some [0x0C#8, 1#8] := by decide
theorem test_xor : regsAfter 0x8123 (startWith [(1, 0x3C), (2, 0x0F), (15, 1)]) [1, 15] = some [0x33#8, 1#8] := by decide
theorem test_add_carry : regsAfter 0x8124 (startWith [(1, 0xFF), (2, 1)]) [1, 15] = some [0#8, 1#8] := by decide
theorem test_add_into_vf : regsAfter 0x8F14 (startWith [(15, 1), (1, 0xFF)]) [15, 1] = some [0#8, 0xFF#8] := by decide
theorem test_sub_borrow : regsAfter 0x8125 (startWith [(1, 5), (2, 0x0A)]) [1, 15] = some [0xFB#8, 0#8] := by decide
theorem test_sub_reads_old_vf : regsAfter 0x81F5 (startWith [(1, 0x10), (15, 0x20)]) [1, 15] = some [0xF0#8, 0#8] := by decide
theorem test_shr_ignores_y :
    regsAfter 0x8346 (startWith [(3, 5), (4, 0xFF)]) [3, 4, 15] = some [2#8, 0xFF#8, 1#8] := by decide
theorem test_shr_into_vf : regsAfter 0x8F06 (startWith [(15, 3)]) [15] = some [1#8] := by decide
theorem test_subn : regsAfter 0x8127 (startWith [(1, 0x0A), (2, 5)]) [1, 15] = some [0xFB#8, 0#8] := by decide
theorem test_subn_into_vf : regsAfter 0x8F27 (startWith [(15, 0x10), (2, 5)]) [15] = some [0xF5#8] := by decide
theorem test_shl : regsAfter 0x812E (startWith [(1, 0x80), (2, 0xFF)]) [1, 15] = some [0#8, 1#8] := by decide
theorem test_shl_into_vf : regsAfter 0x8F0E (startWith [(15, 0x81)]) [15] = some [2#8] := by decide
/-- A22, whatever the random byte: a zero mask gives 0, and one byte is drawn. -/
theorem test_rnd_draws_once :
    (after 0xC300 (startWith [(3, 0xFF)])).map (fun t => (t.getV 3, t.rngDraws)) = some (Config.randomByte 0 &&& 0#8, 1) := by
  rfl

/-! ## The compositor (vectors X1 to X20) -/

/-- `I` at sprite bytes stored at 0x300. -/
def withSprite (bytes : List Byte) (s : State) : State := (s.storeBytes 0x300 bytes).setI 0x300

/-- A display with some cells lit. -/
def litDisplay (cells : List (Fin 64 × Fin 32)) : Display := cells.foldl (fun d p => Display.toggle d p.1 p.2) blankDisplay

theorem test_cls_keeps_vf :
    (after 0x00E0 ((startWith [(15, 7)]).setDisp (litDisplay [(63, 31), (0, 0)]))).map (fun t => (t.disp, t.getV 15)) =
      some (blankDisplay, 7#8) := by decide
theorem test_draw_two_rows :
    (after 0xD012 (withSprite [0xF0, 0x90] State.reset)).map (fun t => (t.disp, t.getV 15)) =
      some (litDisplay [(0, 0), (1, 0), (2, 0), (3, 0), (0, 1), (3, 1)], 0#8) := by decide
theorem test_draw_collision :
    (after 0xD011 ((withSprite [0xC0] State.reset).setDisp (litDisplay [(1, 0)]))).map (fun t => (t.disp, t.getV 15)) =
      some (litDisplay [(0, 0)], 1#8) := by decide
theorem test_draw_wraps_in_both_axes :
    (after 0xD012 (withSprite [0xF0, 0x90] (startWith [(0, 62), (1, 31)]))).map (fun t => (t.disp, t.getV 15)) =
      some (litDisplay [(62, 31), (63, 31), (0, 31), (1, 31), (62, 0), (1, 0)], 0#8) := by decide
theorem test_draw_no_rows_beyond_memory :
    (after 0xD010 ((startWith [(15, 1)]).setI 0xFFFF)).map (fun t => (t.disp, t.getV 15, t.run)) =
      some (blankDisplay, 0#8, .running) := by decide
theorem test_draw_overrun :
    [runAfter 0xD013 (State.reset.setI 0xFFE), runAfter 0xD011 (State.reset.setI 0x1005)] =
      [some (.halted (.addressOverrun .read 0x1000 0x200#16)), some (.halted (.addressOverrun .read 0x1005 0x200#16))] := by
  decide
/-- X18: the coordinate in `VF` is read before the flag is written. -/
theorem test_draw_at_vf :
    (after 0xDF01 (withSprite [0x80] (startWith [(15, 3), (0, 4)]))).map (fun t => (t.disp, t.getV 15)) =
      some (litDisplay [(3, 4)], 0#8) := by decide
/-- X8 and X7: clip. -/
theorem test_draw_clip :
    (drawSprite .clip blankDisplay 60 31 [0xFF]).disp = litDisplay [(60, 31), (61, 31), (62, 31), (63, 31)] ∧
    drawSprite .clip blankDisplay 64 0 [0xFF] = ⟨blankDisplay, false⟩ := by decide
/-- X10, X11, X12: reject. -/
theorem test_draw_reject :
    [(56, 0, 1), (57, 0, 1), (0, 31, 2), (0, 31, 1), (0x80, 0xFF, 0)].map
      (fun p => rejects .reject p.1 p.2.1 p.2.2) = [false, true, true, false, false] := by decide

/-! ## Index and memory (vectors M1 to M15) -/

theorem test_ld_i : (after 0xA2F0 State.reset).map State.i = some 0x2F0#16 := by decide
theorem test_add_i_wraps :
    (after 0xF11E ((startWith [(1, 1)]).setI 0xFFFF)).map (fun t => (t.i, t.getV 15)) = some (0#16, 0#8) := by decide
theorem test_add_i_beyond_memory : (after 0xF11E ((startWith [(1, 1)]).setI 0xFFF)).map State.i = some 0x1000#16 := by decide
theorem test_ld_f_takes_all_of_vx :
    [0x0F#8, 0x10#8, 0xFF#8].map (fun b => (after 0xF129 (startWith [(1, b)])).map State.i) =
      [some 0x04B#16, some 0x050#16, some 0x4FB#16] := by decide
theorem test_ld_b : bytesAfter 0xF033 ((startWith [(0, 255)]).setI 0x300) 0x300 4 = some [2#8, 5#8, 5#8, 0#8] := by decide
theorem test_ld_b_at_the_top :
    [bytesAfter 0xF033 ((startWith [(0, 200)]).setI 0xFFD) 0xFFD 3, bytesAfter 0xF033 ((startWith [(0, 200)]).setI 0xFFE) 0xFFE 2] =
      [some [2#8, 0#8, 0#8], some [0#8, 0#8]] := by decide
theorem test_st_regs_is_inclusive :
    bytesAfter 0xF255 (((startWith [(0, 1), (1, 2), (2, 3), (3, 4)]).setI 0x300).storeBytes 0x303 [0xEE]) 0x300 4 =
      some [1#8, 2#8, 3#8, 0xEE#8] := by decide
theorem test_st_regs_overrun :
    (after 0xF155 ((startWith [(0, 0xAB)]).setI 0xFFF)).map (fun t => (t.byteAt 0xFFF, t.run)) =
      some (0#8, .halted (.addressOverrun .write 0x1000 0x200#16)) := by decide
theorem test_ld_regs_is_inclusive :
    regsAfter 0xF165 (((startWith [(2, 0x77)]).setI 0x300).storeBytes 0x300 [0x42, 0x43, 0x44]) [0, 1, 2] =
      some [0x42#8, 0x43#8, 0x77#8] := by decide
theorem test_ld_regs_overrun :
    runAfter 0xF065 (State.reset.setI 0x1000) = some (.halted (.addressOverrun .read 0x1000 0x200#16)) := by decide
/-- M15: the next fetch sees the store. -/
theorem test_store_over_the_next_instruction :
    ((after 0xF155 ((startWith [(0, 0x12), (1, 0)]).setI 0x202)).map fun t => t.wordAt 0x202) = some 0x1200#16 := by decide
/-- The font of R58: the glyph A at 0x032. -/
theorem test_font_glyph_a : State.reset.bytesAt 0x32 5 = [0xF0, 0x90, 0xF0, 0x90, 0x90] := by decide
/-- A store of the byte an address reads as when unlisted leaves memory in the same canonical form. -/
theorem test_memory_is_canonical :
    ((State.reset.storeBytes 0x300 [7]).storeBytes 0x300 [0]).mem = [] ∧ (State.reset.storeBytes 0 [0xF0]).mem = [] := by decide

/-! ## Timers and keys (vectors T1 to T17) -/

/-- A state with one key held. -/
def holding (k : Key) (s : State) : State := setKeyState k true s

theorem test_tick_floor : [tickTimer 0, tickTimer 1, tickTimer 255] = [0#8, 0#8, 254#8] := by decide
theorem test_ld_vx_dt :
    (after 0xF307 (State.reset.setDT 0x3C)).map (fun t => (t.getV 3, t.dt)) = some (0x3C#8, 0x3C#8) := by decide
theorem test_ld_dt_vx : (after 0xF015 (startWith [(0, 3)])).map (fun t => (t.dt, t.st)) = some (3#8, 0#8) := by decide
theorem test_ld_st_vx :
    (after 0xF118 (startWith [(1, 1)])).map (fun t => (t.st, t.dt, t.soundActive, (tick t).soundActive)) =
      some (1#8, 0#8, true, false) := by decide
theorem test_skips_no_key_held :
    [0xE29E, 0xE2A1].map (fun w => pcAfter w (startWith [(2, 5)])) = [some 0x202#16, some 0x204#16] := by decide
/-- T8 and T10: with one key held there is nothing to choose. -/
theorem test_skp_key_held :
    pcAfter 0xE29E (holding 5 (startWith [(2, 5)])) = some 0x204#16 ∧
    pcAfter 0xE29E (holding 0 (startWith [(2, 0x10)])) = some 0x202#16 := ⟨rfl, rfl⟩
theorem test_sknp_key_held :
    pcAfter 0xE2A1 (holding 5 (startWith [(2, 5)])) = some 0x202#16 ∧
    pcAfter 0xE2A1 (holding 0 (startWith [(2, 0x10)])) = some 0x204#16 := ⟨rfl, rfl⟩
theorem test_key_wait_takes_a_held_key :
    (after 0xF30A (holding 12 State.reset)).map (fun t => (t.getV 3, t.run, t.pc)) = some (0x0C#8, .running, 0x202#16) := rfl
theorem test_key_wait_suspends :
    (after 0xF30A State.reset).map (fun t => (t.getV 3, t.run, t.pc, t.report)) =
      some (0#8, .awaitingKey 3, 0x202#16, .awaitingKey) := by decide
/-- T15: the resuming step loads the key and executes nothing. -/
theorem test_key_wait_resumes :
    (match step (holding 11 ((State.reset.setPc 0x202).setRun (.awaitingKey 3))) with
      | .next t => some (t.getV 3, t.run, t.pc)
      | _ => none) = some (0x0B#8, .running, 0x202#16) := rfl
/-- T11: with several keys held the choice is among them. -/
theorem test_choice_is_a_held_key : [0, 1, 2, 3].map (chooseKey 3 [9]) = [3, 9, 3, 9] := by decide

/-! ## The host operations (vectors F2 to F7) -/

theorem test_initialize_loads_the_rom :
    [0x04F, 0x050, 0x1FF, 0x200, 0x201, 0x202].map (initMemory InitParams.default [0x12, 0x34]).read =
      [0x80#8, 0#8, 0#8, 0x12#8, 0x34#8, 0#8] := by
  simp only [List.map, initMemory_read InitParams.default [0x12, 0x34] (by decide) (by decide)]
  decide
/-- F3 and F4: the largest ROM, and one byte more. -/
theorem test_largest_rom : loadFault (.bytes (List.replicate 3584 0xFF)) = none :=
  loadFault_of_le (by rw [List.length_replicate])
theorem test_oversize_rom :
    loadFault (.bytes (List.replicate 3585 0xFF)) = some (.romLoadFailure .oversize 3585) := by
  rw [loadFault_of_lt (by rw [List.length_replicate]; omega), List.length_replicate]
theorem test_nothing_runs_before_a_load :
    Block.runOps [.tick] (.unloaded none) = .refused .notInitialised ∧
    Block.runOps [.initialise InitParams.default (.unreadable 9), .step] (.unloaded none) =
      .next (.unloaded (some (.romLoadFailure .unreadable 9))) := ⟨rfl, rfl⟩
theorem test_fault_codes :
    [Fault.decodeError 0 0, .stackOverflow .push 16 0, .stackUnderflow .pop 0 0, .addressOverrun .read 0 0,
      .romLoadFailure .oversize 0, .drawReject 0 0 0 0].map Fault.code = [1, 2, 3, 4, 5, 6] := by decide

/-! ## Witnesses: concrete states and operands that meet the hypotheses of each obligation that has some, clause by clause -/

/-- A running state whose next instruction is `w`. -/
def atWord (w : Nat) : State := State.reset.withFetchWord 16 w

theorem witness_EncodingUndoesDecoding : decode 0x8346#16 = .instr (.shr 3 4) := by decide
theorem witness_WellFormedLinesAssemble :
    (Line.mk .shl [15]).assemble = some (.shl 15 0) ∧ (Line.mk .rnd [15, 255]).assemble = some (.rnd 15 255) := by decide
theorem witness_StepRunsTheDecodedInstruction :
    (atWord 0x8346).run = .running ∧ (atWord 0x8346).pc.toNat ≤ 0xFFE ∧
    decode (BitVec.ofNat 16 (((atWord 0x8346).byteAt (atWord 0x8346).pc.toNat).toNat * 256 +
      ((atWord 0x8346).byteAt ((atWord 0x8346).pc.toNat + 1)).toNat)) = .instr (.shr 3 4) := by decide
theorem witness_IllegalWordHaltsWithPcUnchanged :
    (atWord 0x5121).run = .running ∧ (atWord 0x5121).pc.toNat ≤ 0xFFE ∧
    (atWord 0x5121).wordAt (atWord 0x5121).pc.toNat = 0x5121#16 ∧ decode 0x5121#16 = .illegal 0x5121#16 := by decide
theorem witness_FetchBeyondMemoryHalts :
    (State.reset.setPc 0xFFF).run = .running ∧ 0xFFE < (State.reset.setPc 0xFFF).pc.toNat ∧
    (State.reset.setPc 0x1000).run = .running ∧ 0xFFE < (State.reset.setPc 0x1000).pc.toNat := by decide
theorem witness_FaultedStepChangesOnlyTheRunState :
    (atWord 0x00EE).run = .running ∧
    step (atWord 0x00EE) = .next ((atWord 0x00EE).setRun (.halted (.stackUnderflow .pop 0 0x200#16))) ∧
    ((atWord 0x00EE).setRun (.halted (.stackUnderflow .pop 0 0x200#16))).run =
      .halted (.stackUnderflow .pop 0 0x200#16) := ⟨rfl, rfl, rfl⟩
theorem witness_HaltedBlockStaysHalted :
    (State.reset.setRun (.halted (.decodeError 0 0x200))).run = .halted (.decodeError 0 0x200) := rfl

/-- The three quiescent states: a halted block, a jump to itself, a wait with no key held. -/
theorem witness_QuiescentStatesAreFixed_halted : Quiescent (State.reset.setRun (.halted (.decodeError 0 0x200))) :=
  .inl ⟨_, rfl⟩
theorem witness_QuiescentStatesAreFixed_idle : Quiescent (atWord 0x1200) := .inr (.inl (by decide))
theorem witness_QuiescentStatesAreFixed_awaiting : Quiescent (State.reset.setRun (.awaitingKey 3)) :=
  .inr (.inr ⟨3, rfl, by decide⟩)

theorem witness_OnlySixOperationsFault :
    (State.reset.setI 0x1000).run = .running ∧
    exec (.ldRegs 0) (State.reset.setI 0x1000) =
      .next ((State.reset.setI 0x1000).haltAt 0x1FE (.addressOverrun .read 0x1000 0x1FE)) := ⟨rfl, rfl⟩
theorem witness_StepKeepsMemoryCanonical :
    MemoryCanonical ((atWord 0xF055).setI 0xFFF) ∧ NextState (step ((atWord 0xF055).setI 0xFFF)) := ⟨rfl, _, rfl⟩

/-- Run states that fit: a running block, a block that awaits a key after its `Fx0A`, and a fault of each kind. -/
theorem witness_StepKeepsTheRunStateFitting_running : RunFits (atWord 0xF30A) ∧ NextState (step (atWord 0xF30A)) :=
  ⟨trivial, _, rfl⟩
theorem witness_StepKeepsTheRunStateFitting_awaiting : RunFits (((atWord 0xF30A).setPc 0x202).setRun (.awaitingKey 3)) :=
  ⟨by decide, by decide, by decide⟩
theorem witness_StepKeepsTheRunStateFitting_illegal :
    RunFits ((atWord 0x5121).setRun (.halted (.decodeError 0x5121 0x200))) :=
  ⟨rfl, by decide, by decide, by decide⟩
theorem witness_StepKeepsTheRunStateFitting_overflow :
    RunFits ({ atWord 0x2300 with sp := 16, run := .halted (.stackOverflow .push 16 0x200) }) :=
  ⟨rfl, rfl, rfl, rfl, 0x300#12, by decide, by decide⟩
theorem witness_StepKeepsTheRunStateFitting_underflow :
    RunFits ((atWord 0x00EE).setRun (.halted (.stackUnderflow .pop 0 0x200))) :=
  ⟨rfl, rfl, rfl, rfl, by decide, by decide⟩
theorem witness_StepKeepsTheRunStateFitting_fetch :
    RunFits ((State.reset.setPc 0xFFF).setRun (.halted (.addressOverrun .fetch 0x1000 0xFFF))) :=
  ⟨rfl, by decide, by decide⟩
theorem witness_StepKeepsTheRunStateFitting_read :
    RunFits (((atWord 0xF065).setI 0x1000).setRun (.halted (.addressOverrun .read 0x1000 0x200))) :=
  ⟨rfl, by decide, .ldRegs 0, ⟨by decide, by decide⟩, .inr rfl, by decide, by decide⟩
theorem witness_StepKeepsTheRunStateFitting_draw :
    RunFits (((atWord 0xD013).setI 0xFFE).setRun (.halted (.addressOverrun .read 0x1000 0x200))) :=
  ⟨rfl, by decide, .drw 0 1 3, ⟨by decide, by decide⟩, .inl rfl, by decide, by decide⟩
theorem witness_StepKeepsTheRunStateFitting_write :
    RunFits (((atWord 0xF155).setI 0xFFF).setRun (.halted (.addressOverrun .write 0x1000 0x200))) :=
  ⟨rfl, by decide, .stRegs 1, ⟨by decide, by decide⟩, .inr rfl, by decide, by decide⟩
/-- An overrun that its instruction does not explain does not fit: `F065` with `I = 0x300` reads within memory. -/
theorem test_unexplained_overrun_does_not_fit :
    ¬ RunFits (((atWord 0xF065).setI 0x300).setRun (.halted (.addressOverrun .read 0x1000 0x200))) := by
  rintro ⟨-, -, i, ⟨-, hd⟩, -, -, hreach⟩
  have hi : decode (((atWord 0xF065).setI 0x300).wordAt 0x200) = .instr (.ldRegs 0) := by decide
  obtain rfl : Instr.ldRegs 0 = i := Decoded.instr.inj (hi.symm.trans hd)
  exact absurd hreach (by decide)

theorem witness_HostOperationsKeepTheBlockFitting :
    (Block.live State.reset).Fits ∧ (Block.unloaded none).Fits ∧
    HostOp.Fits (.initialise InitParams.default (.unreadable 9)) ∧ HostOp.Fits .tick ∧ HostOp.Fits .step ∧
    HostOp.Fits (.setKeyState 0 true) ∧
    ∃ b, Block.runOps [.initialise InitParams.default (.unreadable 9), .tick, .setKeyState 0 true, .step]
      (.live State.reset) = .next b :=
  ⟨⟨rfl, trivial⟩, (fun f h => by cases h), rfl, trivial, trivial, trivial, _, rfl⟩

theorem witness_OnlyClearAndDrawChangeTheDisplay :
    Instr.op (.stRegs 0) ≠ .cls ∧ Instr.op (.stRegs 0) ≠ .drw ∧ NextState (exec (.stRegs 0) State.reset) ∧
    (holding 5 (State.reset.setRun (.awaitingKey 3))).run = .awaitingKey 3 ∧
    NextState (step (holding 5 (State.reset.setRun (.awaitingKey 3)))) ∧
    (State.reset.setRun (.halted (.decodeError 0 0x200))).run = .halted (.decodeError 0 0x200) :=
  ⟨by decide, by decide, ⟨_, rfl⟩, rfl, ⟨_, rfl⟩, rfl⟩
theorem witness_OnlyTwoStoresChangeMemory :
    Instr.op (.ldRegs 0) ≠ .ldB ∧ Instr.op (.ldRegs 0) ≠ .stRegs ∧ NextState (exec (.ldRegs 0) State.reset) ∧
    (State.reset.setRun (.awaitingKey 3)).run = .awaitingKey 3 ∧ NextState (step (State.reset.setRun (.awaitingKey 3))) ∧
    (State.reset.setRun (.halted (.decodeError 0 0x200))).run = .halted (.decodeError 0 0x200) :=
  ⟨by decide, by decide, ⟨_, rfl⟩, rfl, ⟨_, rfl⟩, rfl⟩
theorem witness_EachRegisterHasItsOwnWriters :
    NextState (exec (.drw 0 1 5) State.reset) ∧ Instr.op (.drw 0 1 5) ∉ [.ldI, .addI, .ldF, .call, .ret, .ldDTVx, .ldSTVx] :=
  ⟨⟨_, rfl⟩, by decide⟩
theorem witness_FlagHasNoOtherWriters :
    NextState (exec (.addImm 14 1) State.reset) ∧
    Instr.op (.addImm 14 1) ∉ [.addReg, .subReg, .shr, .subnReg, .shl, .drw] ∧ (∀ kk, Instr.addImm 14 1 ≠ .ldImm 15 kk) ∧
    (∀ kk, Instr.addImm 14 1 ≠ .addImm 15 kk) ∧ (∀ y, Instr.addImm 14 1 ≠ .ldReg 15 y) ∧
    (∀ y, Instr.addImm 14 1 ≠ .orReg 15 y) ∧ (∀ y, Instr.addImm 14 1 ≠ .andReg 15 y) ∧
    (∀ y, Instr.addImm 14 1 ≠ .xorReg 15 y) ∧ (∀ kk, Instr.addImm 14 1 ≠ .rnd 15 kk) ∧ Instr.addImm 14 1 ≠ .ldVxDT 15 ∧
    Instr.addImm 14 1 ≠ .ldVxK 15 ∧ Instr.addImm 14 1 ≠ .ldRegs 15 :=
  ⟨⟨_, rfl⟩, by decide, by simp, by simp, by simp, by simp, by simp, by simp, by simp, by decide, by decide, by decide⟩
theorem witness_OnlyControlInstructionsMovePc :
    exec (.ldB 3) State.reset = .next (State.reset.storeBytes 0 [0, 0, 0]) ∧
    (State.reset.storeBytes 0 [0, 0, 0]).run = .running ∧ Instr.op (.ldB 3) ≠ .ldVxK ∧
    Instr.op (.ldB 3) ∉ [.ret, .jp, .call, .jpV0, .seImm, .sneImm, .seReg, .sneReg, .skp, .sknp] :=
  ⟨rfl, rfl, by decide, by decide⟩

/-- The boundary depths: 15 pushes, 16 faults; 1 pops, 0 faults. -/
theorem witness_CallPushesTheReturnAddress :
    ({ State.reset with sp := 15 } : State).sp.val < 16 ∧ ({ State.reset with sp := 16 } : State).sp.val = 16 := by decide
theorem witness_RetPopsIntoThePc :
    0 < ({ State.reset with sp := 1 } : State).sp.val ∧ 0 < ({ State.reset with sp := 16 } : State).sp.val ∧
    State.reset.sp.val = 0 := by decide
theorem witness_RetAfterCallRestoresThePc :
    State.reset.sp.val < 16 ∧
    exec (.call 0x300) State.reset =
      .next { State.reset with pc := 0x300, sp := 1, stack := State.reset.stack.set 0 0x200 } := ⟨by decide, rfl⟩

/-- No rows with `I` beyond memory, and one row at the last byte. -/
theorem witness_DrawXorsTheSpriteAndReportsCollision :
    ((0 : Rows).val = 0 ∨ (State.reset.setI 0xFFFF).i.toNat + (0 : Rows).val ≤ 0x1000) ∧
    ((1 : Rows).val = 0 ∨ (State.reset.setI 0xFFF).i.toNat + (1 : Rows).val ≤ 0x1000) := by decide
theorem witness_DrawingTwiceRestoresTheDisplay : (List.replicate 15 0x80#8).length ≤ 15 := by decide
theorem witness_ClipDropsPixelsOutsideTheGrid :
    ((1 : Rows).val = 0 ∨ (startWith [(0, 64)]).i.toNat + (1 : Rows).val ≤ 0x1000) ∧
    (64 ≤ ((startWith [(0, 64)]).getV 0).toNat ∨ 32 ≤ ((startWith [(0, 64)]).getV 1).toNat) ∧
    (64 ≤ ((startWith [(1, 32)]).getV 0).toNat ∨ 32 ≤ ((startWith [(1, 32)]).getV 1).toNat) := by decide
/-- Column 57 leaves the grid and 56 does not; rows 31 and 32; a sprite that ends at 0x1001. -/
theorem witness_RejectFaultsOrAgreesWithWrap :
    ((startWith [(0, 57)]).i.toNat + (1 : Rows).val ≤ 0x1000 ∧ 63 < ((startWith [(0, 57)]).getV 0).toNat + 7) ∧
    ((startWith [(1, 31)]).i.toNat + (2 : Rows).val ≤ 0x1000 ∧
      31 < ((startWith [(1, 31)]).getV 1).toNat + (2 : Rows).val - 1) ∧
    (((startWith [(0, 56), (1, 31)]).getV 0).toNat + 7 ≤ 63 ∧
      ((startWith [(0, 56), (1, 31)]).getV 1).toNat + (1 : Rows).val - 1 ≤ 31) ∧
    ((1 : Rows).val ≠ 0 ∧ 0x1000 < (State.reset.setI 0x1000).i.toNat + (1 : Rows).val) := by decide

theorem witness_DecimalDigitsAreStoredAtI :
    MemoryCanonical (State.reset.setI 0xFFD) ∧ (State.reset.setI 0xFFD).i.toNat + 2 ≤ 0xFFF := ⟨rfl, by decide⟩
theorem witness_RegistersAreStoredInclusively :
    MemoryCanonical (State.reset.setI 0xFF0) ∧ (State.reset.setI 0xFF0).i.toNat + (15 : Reg).val ≤ 0xFFF :=
  ⟨rfl, by decide⟩
theorem witness_RegistersAreLoadedInclusively :
    (State.reset.setI 0xFFF).i.toNat + (0 : Reg).val ≤ 0xFFF ∧ (State.reset.setI 0xFF0).i.toNat + (15 : Reg).val ≤ 0xFFF := by
  decide
theorem witness_StoreThenLoadRestoresRegisters :
    MemoryCanonical ((startWith [(5, 0x66)]).setI 0x300) ∧ ((startWith [(5, 0x66)]).setI 0x300).i.toNat + (5 : Reg).val ≤ 0xFFF ∧
    exec (.stRegs 5) ((startWith [(5, 0x66)]).setI 0x300) = .next (((startWith [(5, 0x66)]).setI 0x300).storeBytes 0x305 [0x66]) :=
  ⟨rfl, by decide, rfl⟩
theorem witness_AStoreIsSeenByTheNextFetch :
    MemoryCanonical ((startWith [(0, 0x12)]).setI 0x200) ∧ ((startWith [(0, 0x12)]).setI 0x200).run = .running ∧
    ((startWith [(0, 0x12)]).setI 0x200).i.toNat + (1 : Reg).val ≤ 0xFFF ∧ (1 : Reg).val = (0 : Reg).val + 1 ∧
    ((startWith [(0, 0x12)]).setI 0x200).pc.toNat = ((startWith [(0, 0x12)]).setI 0x200).i.toNat + (0 : Reg).val ∧
    decode (joinBytes (((startWith [(0, 0x12)]).setI 0x200).getV 0) (((startWith [(0, 0x12)]).setI 0x200).getV 1)) =
      .instr (.jp 0x200) := ⟨rfl, by decide, by decide, by decide, by decide, by decide⟩
theorem witness_AccessBeyondMemoryHalts :
    ((2 : Rows).val ≠ 0 ∧ 0xFFF < (State.reset.setI 0xFFF).i.toNat + (2 : Rows).val - 1) ∧
    0xFFF < (State.reset.setI 0xFFE).i.toNat + 2 ∧ 0xFFF < (State.reset.setI 0xFFF).i.toNat + (1 : Reg).val ∧
    0xFFF < (State.reset.setI 0x1000).i.toNat + (0 : Reg).val := by decide

theorem witness_KeySkipsAskTheCurrentKey : (∀ k, State.reset.held.get k = false) ∧ (holding 5 State.reset).held.get 5 = true := by
  decide
theorem witness_KeyWaitTakesAHeldKeyOrAwaits :
    (holding 15 State.reset).held.get 15 = true ∧ (∀ k, State.reset.held.get k = false) := by decide
theorem witness_AwaitingStepPollsForAKey :
    (State.reset.setRun (.awaitingKey 3)).run = .awaitingKey 3 ∧
    (∀ j, (State.reset.setRun (.awaitingKey 3)).held.get j = false) ∧
    (holding 0 (State.reset.setRun (.awaitingKey 3))).held.get 0 = true := by decide

theorem witness_InitializeSetsEveryElement :
    InitParams.default.memory.wf = true ∧ (List.replicate 3584 0xFF#8).length ≤ 3584 :=
  ⟨by decide, by rw [List.length_replicate]⟩
theorem witness_FailedLoadHaltsAndLoadsNothing : 3584 < (List.replicate 3585 0xFF#8).length := by
  rw [List.length_replicate]
  omega
theorem witness_ResetIsInitializeWithAnEmptyRom : (atWord 0x5121).rngDraws = 0 ∧ (atWord 0x5121).keyDraws = 0 := by decide
theorem witness_PlacedWordIsTheNextInstruction :
    MemoryCanonical (State.reset.setPc 0xFFE) ∧ (State.reset.setPc 0xFFE).pc.toNat ≤ 0xFFE ∧
    MemoryCanonical (State.reset.setPc 0xFFF) := ⟨rfl, by decide, rfl⟩

end Sys2Proof.Machine
end

section
/-! PROOFS for spec/20_memory.md: the instruction a running block fetches from memory. -/

namespace Sys2Proof

/-- The big-endian word of two bytes, by its value (spec/20_memory.md R52). -/
@[simp] theorem joinBytes_toNat (hi lo : Byte) : (joinBytes hi lo).toNat = hi.toNat * 256 + lo.toNat := by
  have hlo : lo.toNat < 2 ^ 8 := lo.isLt
  rw [joinBytes, BitVec.toNat_append, ← Nat.shiftLeft_add_eq_or_of_lt hlo, Nat.shiftLeft_eq]

/-- The arithmetic spelling of a fetched word is `joinBytes`, so the step laws apply to it. -/
theorem ofNat_bytes_eq_joinBytes (hi lo : Byte) : BitVec.ofNat 16 (hi.toNat * 256 + lo.toNat) = joinBytes hi lo := by
  rw [← joinBytes_toNat, BitVec.ofNat_toNat, BitVec.setWidth_eq]

end Sys2Proof

namespace Sys2Proof.Machine

/-- Settles O7: the arithmetic word is the one a fetch joins, and the cycle runs what that word decodes to. -/
theorem stepRunsTheDecodedInstruction : Obligations.StepRunsTheDecodedInstruction := by
  intro s i hrun hpc hdecode
  rw [ofNat_bytes_eq_joinBytes] at hdecode
  calc step s
    _ = runCycle s := step_running hrun
    _ = exec i s.advance := runCycle_of_instr hpc hdecode
    _ = exec i { s with pc := s.pc + 2 } := rfl

end Sys2Proof.Machine
end

section
/-! PROOFS for spec/40_control.md: the two jumps. -/

namespace Sys2Proof

/-- A word of family 1 decodes to JP (spec/30_encoding.md R75). -/
@[simp] theorem decode_wordNNN_1 (nnn : Addr12) : decode (wordNNN 0x1#4 nnn) = .instr (.jp nnn) := by
  simp [decode]

/-- A word of family B decodes to JP V0 (spec/30_encoding.md R75). -/
@[simp] theorem decode_wordNNN_B (nnn : Addr12) : decode (wordNNN 0xB#4 nnn) = .instr (.jpV0 nnn) := by
  simp [decode]

@[simp] theorem zextAddr_toNat (a : Addr12) : (zextAddr a).toNat = a.toNat :=
  BitVec.toNat_setWidth_of_le (by decide)

@[simp] theorem zextByte_toNat (b : Byte) : (zextByte b).toNat = b.toNat :=
  BitVec.toNat_setWidth_of_le (by decide)

end Sys2Proof

namespace Sys2Proof.Machine

/-- 12 bits plus 8 bits stay below 2^16, so the target of JP V0 never wraps (R107). -/
@[simp] theorem jumpTarget_toNat (nnn : Addr12) (v0 : Byte) : (jumpTarget nnn v0).toNat = nnn.toNat + v0.toNat := by
  have hsum : (zextAddr nnn).toNat + (zextByte v0).toNat < 2 ^ 16 := by
    rw [zextAddr_toNat, zextByte_toNat]
    omega
  rw [jumpTarget, BitVec.toNat_add_of_lt hsum, zextAddr_toNat, zextByte_toNat]

/-- Setting the program counter changes nothing else. -/
theorem onlyPcChanges_setPc (s : State) (w : Word) : OnlyPcChanges s (s.setPc w) :=
  have hrest : KeepsRest s (s.setPc w) :=
    ⟨rfl, ⟨rfl, fun _ => rfl⟩, ⟨rfl, rfl⟩, keepsMemory_of_eq (State.setPc_mem s w), keepsDisplay_of_eq (State.setPc_disp s w),
      fun _ => rfl, rfl⟩
  ⟨State.getV_setPc s w, hrest, rfl, rfl⟩

theorem exec_jp (nnn : Addr12) (s : State) : exec (.jp nnn) s = .next (s.setPc (zextAddr nnn)) := rfl

theorem exec_jpV0 (nnn : Addr12) (s : State) : exec (.jpV0 nnn) s = .next (s.setPc (jumpTarget nnn (s.getV 0))) := rfl

/-- Settles O24: each jump is one `setPc`, to a target whose value the zero extensions give exactly. -/
theorem jumpsSetThePc : Obligations.JumpsSetThePc := by
  intro nnn s
  refine ⟨decode_wordNNN_1 nnn, decode_wordNNN_B nnn, ?jp, ?jpV0⟩
  case jp => exact ⟨_, exec_jp nnn s, zextAddr_toNat nnn, onlyPcChanges_setPc s _⟩
  case jpV0 => exact ⟨_, exec_jpV0 nnn s, jumpTarget_toNat nnn (s.getV 0), onlyPcChanges_setPc s _⟩

end Sys2Proof.Machine
end

section
/-! PROOFS for spec/41_alu.md: the arithmetic and logic instructions that write one register and no flag. -/

namespace Sys2Proof

/-- A word of family 7 decodes to ADD Vx, kk (spec/30_encoding.md R75). -/
@[simp] theorem decode_wordXKK_7 (x : Reg) (kk : Byte) : decode (wordXKK 0x7#4 x kk) = .instr (.addImm x kk) := by
  simp [decode]

end Sys2Proof

namespace Sys2Proof.Machine

@[simp] theorem addByte_toNat (a b : Byte) : (addByte a b).toNat = (a.toNat + b.toNat) % 256 :=
  BitVec.toNat_add a b

/-- Writing a register leaves the other registers and everything else as before. -/
theorem onlyRegChanges_setV (s : State) (x : Reg) (b : Byte) : OnlyRegChanges x s (s.setV x b) :=
  have hregs : KeepsRegsBut x s (s.setV x b) := fun _ hr => State.getV_setV_of_ne s hr b
  have hrest : KeepsRest s (s.setV x b) :=
    ⟨rfl, ⟨rfl, fun _ => rfl⟩, ⟨rfl, rfl⟩, keepsMemory_of_eq (State.setV_mem s x b),
      keepsDisplay_of_eq (State.setV_disp s x b), fun _ => rfl, rfl⟩
  ⟨hregs, rfl, hrest, rfl, rfl⟩

theorem exec_addImm (x : Reg) (kk : Byte) (s : State) :
    exec (.addImm x kk) s = .next (s.setV x (addByte (s.getV x) kk)) := rfl

/-- Settles O29: ADD Vx, kk is one `setV` of the byte sum, so even for x = F no flag is written beside it. -/
theorem addImmediateWrapsWithoutACarry : Obligations.AddImmediateWrapsWithoutACarry := by
  intro x kk s
  have hsum : ((s.setV x (addByte (s.getV x) kk)).getV x).toNat = ((s.getV x).toNat + kk.toNat) % 256 := by
    rw [State.getV_setV_self, addByte_toNat]
  exact ⟨decode_wordXKK_7 x kk, _, exec_addImm x kk s, hsum, onlyRegChanges_setV s x _⟩

end Sys2Proof.Machine
end

section
/-! PROOFS for spec/43_index_memory.md: the load of the index register. -/

namespace Sys2Proof

/-- A word of family A decodes to LD I (spec/30_encoding.md R75). -/
@[simp] theorem decode_wordNNN_A (nnn : Addr12) : decode (wordNNN 0xA#4 nnn) = .instr (.ldI nnn) := by
  simp [decode]

end Sys2Proof

namespace Sys2Proof.Machine

theorem exec_ldI (nnn : Addr12) (s : State) : exec (.ldI nnn) s = .next (s.setI (zextAddr nnn)) := rfl

/-- Settles O42: LD I is one `setI` of the zero-extended field, whose value is that of 12 bits. -/
theorem loadIndexTakesTheAddressField : Obligations.LoadIndexTakesTheAddressField := by
  intro nnn s
  have hI : (s.setI (zextAddr nnn)).i.toNat = nnn.toNat := by
    rw [State.setI_i, zextAddr_toNat]
  have hbound : (s.setI (zextAddr nnn)).i.toNat ≤ 0xFFF := by
    rw [hI]
    omega
  exact ⟨decode_wordNNN_A nnn, _, exec_ldI nnn s, hI, hbound, State.getV_setI s _, rfl, ⟨rfl, fun _ => rfl⟩, ⟨rfl, rfl⟩,
    keepsMemory_of_eq (State.setI_mem s _), keepsDisplay_of_eq (State.setI_disp s _), ⟨fun _ => rfl, rfl⟩, rfl, rfl⟩

end Sys2Proof.Machine
end

section
/-! PROOFS for spec/44_timer_input.md: the host's key state. -/

namespace Sys2Proof.Machine

/-- `set_key_state` writes the one key it names (R237). -/
theorem get_held_setKeyState (k : Key) (p : Bool) (s : State) (j : Key) :
    (setKeyState k p s).held.get j = if j = k then p else s.held.get j := by
  rw [setKeyState_held, Vector.get_eq_getElem, Vector.getElem_set, Vector.get_eq_getElem]
  simp only [Fin.ext_iff, @eq_comm _ j.val]

@[simp] theorem get_held_setKeyState_self (k : Key) (p : Bool) (s : State) : (setKeyState k p s).held.get k = p := by
  rw [get_held_setKeyState, if_pos rfl]

theorem get_held_setKeyState_of_ne {k j : Key} (h : j ≠ k) (p : Bool) (s : State) :
    (setKeyState k p s).held.get j = s.held.get j := by
  rw [get_held_setKeyState, if_neg h]

@[simp] theorem getV_setKeyState (k : Key) (p : Bool) (s : State) (r : Reg) : (setKeyState k p s).getV r = s.getV r := rfl

/-- A live block accepts `set_key_state` and answers the host nothing (R237). -/
theorem perform_setKeyState_live (k : Key) (p : Bool) (s : State) :
    Block.perform (.setKeyState k p) (.live s) = .next (.live (setKeyState k p s), none) := rfl

/-- Settles O52: only `held` is written, at the one index `k`. -/
theorem setKeyStateSetsOneKey : Obligations.SetKeyStateSetsOneKey := by
  intro k p s
  have hothers : ∀ j, j ≠ k → (setKeyState k p s).held.get j = s.held.get j :=
    fun _ hj => get_held_setKeyState_of_ne hj p s
  have hstack : KeepsStack s (setKeyState k p s) := ⟨rfl, fun _ => rfl⟩
  have htimers : KeepsTimers s (setKeyState k p s) := ⟨rfl, rfl⟩
  have hmem : KeepsMemory s (setKeyState k p s) := keepsMemory_of_eq (setKeyState_mem k p s)
  have hdisp : KeepsDisplay s (setKeyState k p s) := keepsDisplay_of_eq (setKeyState_disp k p s)
  have hdraws : KeepsDraws s (setKeyState k p s) := ⟨rfl, rfl⟩
  exact ⟨get_held_setKeyState_self k p s, hothers, setKeyState_run k p s, getV_setKeyState k p s, setKeyState_pc k p s,
    setKeyState_i k p s, hstack, htimers, hmem, hdisp, hdraws, perform_setKeyState_live k p s⟩

end Sys2Proof.Machine
end

section
/-! PROOFS for spec/30_encoding.md: the round trip of decoder and encoder. -/

namespace Sys2Proof

/-- The fields the encoder writes are the fields the nibble tree reads, family by family. -/
theorem decode_encode (i : Instr) : decode (encode i) = .instr i := by
  cases i with
  | cls | ret => decide
  | jp | call | ldI | jpV0 => simp [encode, decode]
  | seImm | sneImm | ldImm | addImm | rnd => simp [encode, decode]
  | seReg | sneReg | drw => simp [encode, decode]
  | ldReg | orReg | andReg | xorReg | addReg | subReg | shr | subnReg | shl => simp [encode, decode, decode8]
  | skp | sknp => simp [encode, decode, decodeE]
  | ldVxDT | ldVxK | ldDTVx | ldSTVx | addI | ldF | ldB | stRegs | ldRegs => simp [encode, decode, decodeF]

/-- The two bytes of an instruction are read back whatever follows them (R72). -/
theorem decodeBytes_encodeBytes_append (i : Instr) (rest : List Byte) :
    decodeBytes (encodeBytes i ++ rest) = some (.instr i, rest) := by
  simp [encodeBytes, decodeBytes, decode_encode]

/-! ### A word is its fields (R70) -/

theorem opKK_eq_append (w : Word) : opKK w = opY w ++ opN w := by
  rw [opY, opN, BitVec.extractLsb'_append_extractLsb'_eq_extractLsb' (by omega)]
  rfl

theorem opNNN_eq_append (w : Word) : opNNN w = opX w ++ opKK w := by
  rw [opX, opKK, BitVec.extractLsb'_append_extractLsb'_eq_extractLsb' (by omega)]
  rfl

theorem wordNNN_of_opH {w : Word} {h : BitVec 4} (hH : opH w = h) : wordNNN h (opNNN w) = w := by
  have hw : (opH w ++ opNNN w : BitVec (4 + 12)) = w := by
    rw [opH, opNNN, BitVec.extractLsb'_append_extractLsb'_eq_extractLsb' (by omega)]
    simp
  rw [← hH]
  exact hw

theorem wordXKK_of_opH {w : Word} {h : BitVec 4} (hH : opH w = h) :
    wordXKK h (nibbleNum (opX w)) (opKK w) = w := by
  have hw := wordNNN_of_opH hH
  rwa [opNNN_eq_append] at hw

/-- A word whose pattern fixes the low byte. -/
theorem wordXKK_of_nibbles {w : Word} {h y n : BitVec 4} {kk : Byte} (hH : opH w = h) (hY : opY w = y) (hN : opN w = n)
    (hkk : y ++ n = kk) : wordXKK h (nibbleNum (opX w)) kk = w := by
  have hw := wordXKK_of_opH hH
  rwa [opKK_eq_append, hY, hN, hkk] at hw

theorem wordXYN_of_opH {w : Word} {h n : BitVec 4} (hH : opH w = h) (hN : opN w = n) :
    wordXYN h (nibbleNum (opX w)) (nibbleNum (opY w)) n = w := by
  have hw := wordXKK_of_opH hH
  rwa [opKK_eq_append, hN] at hw

/-! ### Each family's words are the encoder's words (R75) -/

theorem encode_of_decode0 {w : Word} {i : Instr} (hH : opH w = 0x0#4) (h : decode0 w = .instr i) : encode i = w := by
  unfold decode0 at h
  split at h
  case h_1 hY hN hX | h_2 hY hN hX =>
    cases h
    have hw := wordXYN_of_opH hH hN
    rw [hX, hY] at hw
    exact hw
  case h_3 => cases h

theorem encode_of_decode8 {w : Word} {i : Instr} (hH : opH w = 0x8#4) (h : decode8 w = .instr i) : encode i = w := by
  unfold decode8 at h
  split at h
  case h_10 => cases h
  all_goals
    next hN =>
      cases h
      exact wordXYN_of_opH hH hN

theorem encode_of_decodeE {w : Word} {i : Instr} (hH : opH w = 0xE#4) (h : decodeE w = .instr i) : encode i = w := by
  unfold decodeE at h
  split at h
  case h_3 => cases h
  all_goals
    next hY hN =>
      cases h
      exact wordXKK_of_nibbles hH hY hN rfl

theorem encode_of_decodeF {w : Word} {i : Instr} (hH : opH w = 0xF#4) (h : decodeF w = .instr i) : encode i = w := by
  unfold decodeF at h
  split at h
  case h_10 => cases h
  all_goals
    next hY hN =>
      cases h
      exact wordXKK_of_nibbles hH hY hN rfl

theorem encode_of_decode {w : Word} {i : Instr} (h : decode w = .instr i) : encode i = w := by
  unfold decode at h
  split at h
  case h_1 hH => exact encode_of_decode0 hH h
  case h_9 hH => exact encode_of_decode8 hH h
  case h_15 hH => exact encode_of_decodeE hH h
  case h_16 =>
    have hH : opH w = 0xF#4 := by
      generalize opH w = b at *
      revert b
      decide
    exact encode_of_decodeF hH h
  case h_2 hH | h_3 hH | h_11 hH | h_12 hH =>
    cases h
    exact wordNNN_of_opH hH
  case h_4 hH | h_5 hH | h_7 hH | h_8 hH | h_13 hH =>
    cases h
    exact wordXKK_of_opH hH
  case h_14 hH =>
    cases h
    exact wordXYN_of_opH hH rfl
  case h_6 hH | h_10 hH =>
    split at h
    · next hN =>
      cases h
      exact wordXYN_of_opH hH hN
    · cases h

end Sys2Proof

namespace Sys2Proof.Machine

/-- Settles O1: the decoder reads the fields the encoder wrote, and the two bytes join to the word. -/
theorem decodingUndoesEncoding : Obligations.DecodingUndoesEncoding :=
  fun i rest => ⟨decode_encode i, decodeBytes_encodeBytes_append i rest⟩

/-- Settles O2: along each path of the tree the fixed nibbles and the operands make up the whole word. -/
theorem encodingUndoesDecoding : Obligations.EncodingUndoesDecoding :=
  fun _ _ => encode_of_decode

end Sys2Proof.Machine
end

section
/-! PROOFS for spec/30_encoding.md: the opcode table, the illegal words, and the lines of a listing. -/

namespace Sys2Proof

/-! ### Fields as numbers (R70) -/

theorem opH_toNat (w : Word) : (opH w).toNat = w.toNat / 0x1000 := by
  rw [opH, BitVec.extractLsb'_toNat, Nat.shiftRight_eq_div_pow]
  omega

theorem family_of_opH {w : Word} {h : BitVec 4} (hH : opH w = h) : w.toNat / 0x1000 = h.toNat := by
  rw [← hH, opH_toNat]

theorem opN_toNat (w : Word) : (opN w).toNat = w.toNat % 16 := by
  rw [opN, BitVec.extractLsb'_toNat, Nat.shiftRight_zero]

theorem opKK_toNat (w : Word) : (opKK w).toNat = w.toNat % 256 := by
  rw [opKK, BitVec.extractLsb'_toNat, Nat.shiftRight_zero]

theorem opY_eq_of_opKK (w : Word) : opY w = (opKK w).extractLsb' 4 4 := by
  rw [opKK_eq_append]
  exact (field_high (opY w) (opN w)).symm

theorem opN_eq_of_opKK (w : Word) : opN w = (opKK w).extractLsb' 0 4 := by
  rw [opKK_eq_append]
  exact (field_low (opY w) (opN w)).symm

/-! ### A row's fixed bits as numbers (R74) -/

theorem toNat_mask_F000 (w : Word) : (w &&& 0xF000#16).toNat = w.toNat / 0x1000 * 0x1000 := by
  rw [mask_F000, BitVec.toNat_append, ← Nat.shiftLeft_add_eq_or_of_lt (BitVec.isLt _), opH_toNat, Nat.shiftLeft_eq]
  simp

theorem toNat_mask_F00F (w : Word) : (w &&& 0xF00F#16).toNat = w.toNat / 0x1000 * 0x1000 + w.toNat % 16 := by
  rw [mask_F00F, BitVec.toNat_append, ← Nat.shiftLeft_add_eq_or_of_lt (BitVec.isLt _), opH_toNat, Nat.shiftLeft_eq,
    BitVec.toNat_append, ← Nat.shiftLeft_add_eq_or_of_lt (BitVec.isLt _), opN_toNat]
  simp

theorem toNat_mask_F0FF (w : Word) : (w &&& 0xF0FF#16).toNat = w.toNat / 0x1000 * 0x1000 + w.toNat % 256 := by
  rw [mask_F0FF, BitVec.toNat_append, ← Nat.shiftLeft_add_eq_or_of_lt (BitVec.isLt _), opH_toNat, Nat.shiftLeft_eq,
    BitVec.toNat_append, ← Nat.shiftLeft_add_eq_or_of_lt (BitVec.isLt _), opKK_toNat]
  simp

/-! ### The illegal words (R79) -/

/-- The enumeration of R79, family by family. -/
def InIllegalFamily (w : Word) : Prop :=
  (w.toNat / 0x1000 = 0x0 ∧ w ≠ 0x00E0#16 ∧ w ≠ 0x00EE#16) ∨
  ((w.toNat / 0x1000 = 0x5 ∨ w.toNat / 0x1000 = 0x9) ∧ w.toNat % 16 ≠ 0) ∨
  (w.toNat / 0x1000 = 0x8 ∧ w.toNat % 16 ∈ [0x8, 0x9, 0xA, 0xB, 0xC, 0xD, 0xF]) ∨
  (w.toNat / 0x1000 = 0xE ∧ w.toNat % 256 ∉ [0x9E, 0xA1]) ∨
  (w.toNat / 0x1000 = 0xF ∧ w.toNat % 256 ∉ [0x07, 0x0A, 0x15, 0x18, 0x1E, 0x29, 0x33, 0x55, 0x65])

theorem ne_of_decode_illegal {w : Word} {i : Instr} (h : decode w = .illegal w) : encode i ≠ w := by
  rintro rfl
  rw [decode_encode] at h
  cases h

/-- The low nibbles of family 8 that the tree leaves over (R75). -/
theorem opN_of_decode8_illegal {w : Word} (h : decode8 w = .illegal w) :
    w.toNat % 16 ∈ [0x8, 0x9, 0xA, 0xB, 0xC, 0xD, 0xF] := by
  rw [← opN_toNat]
  unfold decode8 at h
  split at h
  case h_10 =>
    generalize opN w = n at *
    revert n
    decide
  all_goals cases h

theorem opKK_of_decodeE_illegal {w : Word} (h : decodeE w = .illegal w) : opKK w ∉ [0x9E#8, 0xA1#8] := by
  intro hkk
  simp only [List.mem_cons, List.not_mem_nil, or_false] at hkk
  rcases hkk with hkk | hkk <;> simp [decodeE, opY_eq_of_opKK, opN_eq_of_opKK, hkk] at h

theorem opKK_of_decodeF_illegal {w : Word} (h : decodeF w = .illegal w) :
    opKK w ∉ [0x07#8, 0x0A#8, 0x15#8, 0x18#8, 0x1E#8, 0x29#8, 0x33#8, 0x55#8, 0x65#8] := by
  intro hkk
  simp only [List.mem_cons, List.not_mem_nil, or_false] at hkk
  rcases hkk with hkk | hkk | hkk | hkk | hkk | hkk | hkk | hkk | hkk <;>
    simp [decodeF, opY_eq_of_opKK, opN_eq_of_opKK, hkk] at h

/-- A byte field misses a list of bytes exactly if its number misses their numbers. -/
theorem opKK_mem_iff (w : Word) (l : List Byte) : opKK w ∈ l ↔ w.toNat % 256 ∈ l.map BitVec.toNat := by
  rw [← opKK_toNat, List.mem_map_of_injective (fun a b => BitVec.eq_of_toNat_eq)]

/-- Down each branch of the tree, what is left over is the family's list (R79). -/
theorem inIllegalFamily_of_decode {w : Word} (h : decode w = .illegal w) : InIllegalFamily w := by
  have hcls : w ≠ 0x00E0#16 := (ne_of_decode_illegal (i := .cls) h).symm
  have hret : w ≠ 0x00EE#16 := (ne_of_decode_illegal (i := .ret) h).symm
  unfold decode at h
  split at h
  case h_1 hH => exact .inl ⟨family_of_opH hH, hcls, hret⟩
  case h_9 hH => exact .inr (.inr (.inl ⟨family_of_opH hH, opN_of_decode8_illegal h⟩))
  case h_15 hH =>
    refine .inr (.inr (.inr (.inl ⟨family_of_opH hH, fun hkk => opKK_of_decodeE_illegal h ?_⟩)))
    exact (opKK_mem_iff w [0x9E#8, 0xA1#8]).mpr hkk
  case h_16 =>
    have hH : opH w = 0xF#4 := by
      generalize opH w = b at *
      revert b
      decide
    refine .inr (.inr (.inr (.inr ⟨family_of_opH hH, fun hkk => opKK_of_decodeF_illegal h ?_⟩)))
    exact (opKK_mem_iff w [0x07#8, 0x0A#8, 0x15#8, 0x18#8, 0x1E#8, 0x29#8, 0x33#8, 0x55#8, 0x65#8]).mpr hkk
  case h_6 hH | h_10 hH =>
    split at h
    · cases h
    · next hN =>
      have hn : w.toNat % 16 ≠ 0 := fun e => hN (BitVec.eq_of_toNat_eq ((opN_toNat w).trans e))
      exact .inr (.inl ⟨by simp [family_of_opH hH], hn⟩)
  all_goals cases h

theorem admits_iff_toNat (r : OpcodeRow) (w : Word) : r.admits w = true ↔ (w &&& r.mask).toNat = r.pattern.toNat := by
  rw [OpcodeRow.admits, beq_iff_eq, BitVec.toNat_inj]

theorem admits_F000_iff (op : Op) (p w : Word) :
    (OpcodeRow.mk op 0xF000 p).admits w = true ↔ w.toNat / 0x1000 * 0x1000 = p.toNat := by
  rw [admits_iff_toNat, ← toNat_mask_F000]
  rfl

theorem admits_F00F_iff (op : Op) (p w : Word) :
    (OpcodeRow.mk op 0xF00F p).admits w = true ↔ w.toNat / 0x1000 * 0x1000 + w.toNat % 16 = p.toNat := by
  rw [admits_iff_toNat, ← toNat_mask_F00F]
  rfl

theorem admits_F0FF_iff (op : Op) (p w : Word) :
    (OpcodeRow.mk op 0xF0FF p).admits w = true ↔ w.toNat / 0x1000 * 0x1000 + w.toNat % 256 = p.toNat := by
  rw [admits_iff_toNat, ← toNat_mask_F0FF]
  rfl

theorem admits_FFFF_iff (op : Op) (p w : Word) : (OpcodeRow.mk op 0xFFFF p).admits w = true ↔ w.toNat = p.toNat := by
  have hmask : w &&& 0xFFFF#16 = w := BitVec.and_allOnes
  rw [admits_iff_toNat, ← congrArg BitVec.toNat hmask]
  rfl

/-- A word of the enumeration differs from each row's pattern in a nibble the row fixes. -/
theorem not_admits_of_inIllegalFamily {w : Word} (h : InIllegalFamily w) : ∀ r ∈ opcodeRows, ¬ r.admits w = true := by
  simp only [opcodeRows, opcodeRowsLow, opcodeRowsMid, opcodeRowsHigh, List.cons_append, List.nil_append,
    List.forall_mem_cons, admits_F000_iff, admits_F00F_iff, admits_F0FF_iff, admits_FFFF_iff, List.not_mem_nil,
    false_imp_iff, implies_true, and_true]
  simp only [InIllegalFamily, ne_eq, List.mem_cons, List.not_mem_nil, or_false] at h
  rcases h with ⟨hH, hcls, hret⟩ | ⟨hH | hH, hN⟩ | ⟨hH, hN⟩ | ⟨hH, hKK⟩ | ⟨hH, hKK⟩
  all_goals bv_omega

/-- A refusal names the word that was refused (R74). -/
theorem eq_of_decode_illegal {w w' : Word} (h : decode w = .illegal w') : w' = w := by
  unfold decode at h
  split at h
  case h_1 =>
    unfold decode0 at h
    split at h <;> cases h
    rfl
  case h_9 =>
    unfold decode8 at h
    split at h <;> cases h
    rfl
  case h_15 =>
    unfold decodeE at h
    split at h <;> cases h
    rfl
  case h_16 =>
    unfold decodeF at h
    split at h <;> cases h
    rfl
  case h_6 | h_10 =>
    split at h <;> cases h
    rfl
  all_goals cases h

theorem decode_cases (w : Word) : (∃ i, decode w = .instr i) ∨ decode w = .illegal w := by
  cases hd : decode w with
  | instr i => exact .inl ⟨i, rfl⟩
  | illegal w' => exact .inr (congrArg Decoded.illegal (eq_of_decode_illegal hd))

/-! ### The table and the decoder agree (R74, R75) -/

/-- Every instruction's word matches a row of its own operation. -/
theorem exists_row_of_instr (i : Instr) : ∃ r ∈ opcodeRows, r.op = i.op ∧ r.admits (encode i) = true := by
  cases i with
  | cls => exact Laws.EncodesRow.cls
  | ret => exact Laws.EncodesRow.ret
  | jp nnn => exact Laws.EncodesRow.jp nnn
  | call nnn => exact Laws.EncodesRow.call nnn
  | seImm x kk => exact Laws.EncodesRow.seImm x kk
  | sneImm x kk => exact Laws.EncodesRow.sneImm x kk
  | seReg x y => exact Laws.EncodesRow.seReg x y
  | ldImm x kk => exact Laws.EncodesRow.ldImm x kk
  | addImm x kk => exact Laws.EncodesRow.addImm x kk
  | ldReg x y => exact Laws.EncodesRow.ldReg x y
  | orReg x y => exact Laws.EncodesRow.orReg x y
  | andReg x y => exact Laws.EncodesRow.andReg x y
  | xorReg x y => exact Laws.EncodesRow.xorReg x y
  | addReg x y => exact Laws.EncodesRow.addReg x y
  | subReg x y => exact Laws.EncodesRow.subReg x y
  | shr x y => exact Laws.EncodesRow.shr x y
  | subnReg x y => exact Laws.EncodesRow.subnReg x y
  | shl x y => exact Laws.EncodesRow.shl x y
  | sneReg x y => exact Laws.EncodesRow.sneReg x y
  | ldI nnn => exact Laws.EncodesRow.ldI nnn
  | jpV0 nnn => exact Laws.EncodesRow.jpV0 nnn
  | rnd x kk => exact Laws.EncodesRow.rnd x kk
  | drw x y n => exact Laws.EncodesRow.drw x y n
  | skp x => exact Laws.EncodesRow.skp x
  | sknp x => exact Laws.EncodesRow.sknp x
  | ldVxDT x => exact Laws.EncodesRow.ldVxDT x
  | ldVxK x => exact Laws.EncodesRow.ldVxK x
  | ldDTVx x => exact Laws.EncodesRow.ldDTVx x
  | ldSTVx x => exact Laws.EncodesRow.ldSTVx x
  | addI x => exact Laws.EncodesRow.addI x
  | ldF x => exact Laws.EncodesRow.ldF x
  | ldB x => exact Laws.EncodesRow.ldB x
  | stRegs x => exact Laws.EncodesRow.stRegs x
  | ldRegs x => exact Laws.EncodesRow.ldRegs x

theorem exists_row_of_decode {w : Word} {i : Instr} (h : decode w = .instr i) :
    ∃ r ∈ opcodeRows, r.op = i.op ∧ r.admits w = true := by
  rw [← encode_of_decode h]
  exact exists_row_of_instr i

/-- The bits two rows both fix. -/
def OpcodeRow.commonMask (r q : OpcodeRow) : Word := r.mask &&& q.mask

/-- Two rows of the table differ in a bit that both fix (R74). -/
theorem rows_differ_in_common_bits :
    ∀ r ∈ opcodeRows, ∀ q ∈ opcodeRows, r.pattern &&& r.commonMask q = q.pattern &&& r.commonMask q → r = q := by
  decide

theorem row_eq_of_admits {w : Word} {r q : OpcodeRow} (hr : r ∈ opcodeRows) (hq : q ∈ opcodeRows)
    (har : r.admits w = true) (haq : q.admits w = true) : r = q := by
  rw [OpcodeRow.admits, beq_iff_eq] at har haq
  refine rows_differ_in_common_bits r hr q hq ?_
  rw [← har, ← haq, OpcodeRow.commonMask]
  ext j
  simp only [BitVec.getElem_and]
  grind

theorem op_injective_on_rows : ∀ r ∈ opcodeRows, ∀ q ∈ opcodeRows, r.op = q.op → r = q := by
  decide

theorem decode_eq_illegal_iff_no_row (w : Word) :
    decode w = .illegal w ↔ ∀ r ∈ opcodeRows, r.admits w = false := by
  simp only [← Bool.not_eq_true]
  refine ⟨fun h => not_admits_of_inIllegalFamily (inIllegalFamily_of_decode h), fun h => (decode_cases w).resolve_left ?_⟩
  rintro ⟨i, hi⟩
  obtain ⟨r, hr, -, ha⟩ := exists_row_of_decode hi
  exact h r hr ha

theorem admits_iff_decode {w : Word} {r : OpcodeRow} (hr : r ∈ opcodeRows) :
    r.admits w = true ↔ ∃ i, decode w = .instr i ∧ i.op = r.op := by
  constructor
  · intro ha
    rcases decode_cases w with ⟨i, hi⟩ | hillegal
    · obtain ⟨q, hq, hop, haq⟩ := exists_row_of_decode hi
      obtain rfl : r = q := row_eq_of_admits hr hq ha haq
      exact ⟨i, hi, hop.symm⟩
    · have hno := (decode_eq_illegal_iff_no_row w).mp hillegal r hr
      rw [ha] at hno
      cases hno
  · rintro ⟨i, hi, hop⟩
    obtain ⟨q, hq, hqop, haq⟩ := exists_row_of_decode hi
    obtain rfl : q = r := op_injective_on_rows q hq r hr (hqop.trans hop)
    exact haq

/-! ### Lines of a listing (R81) -/

/-- The operands a line writes, as the fields of its instruction: the shifts' `y` is not written and is 0. -/
def Op.fieldValues (o : Op) (args : List Nat) : List Nat := if o = .shr ∨ o = .shl then args ++ [0] else args

theorem operandsOk_nil_iff (args : List Nat) : operandsOk [] args = true ↔ args = [] := by
  cases args <;> simp [operandsOk]

theorem operandsOk_cons_iff (k : OperandKind) (ks : List OperandKind) (args : List Nat) :
    operandsOk (k :: ks) args = true ↔ ∃ a as, args = a :: as ∧ a < k.bound ∧ operandsOk ks as = true := by
  cases args <;> simp [operandsOk]

/-- Operands in range are the fields of the instruction they stand for: no reduction to a field's width changes them. -/
theorem exists_instr_of_operandsOk {o : Op} {args : List Nat} (h : operandsOk o.operands args = true) :
    ∃ i, o.instr args = some i ∧ i.op = o ∧ i.fields.map Prod.snd = o.fieldValues args := by
  cases o with
  | cls | ret =>
    obtain rfl := (operandsOk_nil_iff args).mp h
    exact ⟨_, rfl, rfl, rfl⟩
  | jp | call | ldI | jpV0 =>
    simp only [Op.operands, operandsOk_cons_iff, operandsOk_nil_iff, OperandKind.bound] at h
    obtain ⟨a, _, rfl, ha, rfl⟩ := h
    exact ⟨_, rfl, rfl, by simp [Instr.fields, Op.fieldValues, Nat.mod_eq_of_lt ha]⟩
  | seImm | sneImm | ldImm | addImm | rnd =>
    simp only [Op.operands, operandsOk_cons_iff, operandsOk_nil_iff, OperandKind.bound] at h
    obtain ⟨x, _, rfl, hx, k, _, rfl, hk, rfl⟩ := h
    exact ⟨_, rfl, rfl, by simp [Instr.fields, Op.fieldValues, Nat.mod_eq_of_lt hx, Nat.mod_eq_of_lt hk]⟩
  | seReg | sneReg | ldReg | orReg | andReg | xorReg | addReg | subReg | subnReg =>
    simp only [Op.operands, operandsOk_cons_iff, operandsOk_nil_iff, OperandKind.bound] at h
    obtain ⟨x, _, rfl, hx, y, _, rfl, hy, rfl⟩ := h
    exact ⟨_, rfl, rfl, by simp [Instr.fields, Op.fieldValues, Nat.mod_eq_of_lt hx, Nat.mod_eq_of_lt hy]⟩
  | drw =>
    simp only [Op.operands, operandsOk_cons_iff, operandsOk_nil_iff, OperandKind.bound] at h
    obtain ⟨x, _, rfl, hx, y, _, rfl, hy, n, _, rfl, hn, rfl⟩ := h
    exact ⟨_, rfl, rfl, by
      simp [Instr.fields, Op.fieldValues, Nat.mod_eq_of_lt hx, Nat.mod_eq_of_lt hy, Nat.mod_eq_of_lt hn]⟩
  | shr | shl | skp | sknp | ldVxDT | ldVxK | ldDTVx | ldSTVx | addI | ldF | ldB | stRegs | ldRegs =>
    simp only [Op.operands, operandsOk_cons_iff, operandsOk_nil_iff, OperandKind.bound] at h
    obtain ⟨x, _, rfl, hx, rfl⟩ := h
    exact ⟨_, rfl, rfl, by simp [Instr.fields, Op.fieldValues, Nat.mod_eq_of_lt hx]⟩

theorem assemble_of_wellFormed {l : Line} (h : l.wellFormed = true) : l.assemble = l.op.instr l.args := if_pos h

theorem wellFormed_of_assemble {l : Line} {i : Instr} (h : l.assemble = some i) : l.wellFormed = true := by
  by_contra hl
  rw [Line.assemble, if_neg hl] at h
  cases h

end Sys2Proof

namespace Sys2Proof.Machine

/-- Settles O3: a row that fits the word is the row of the instruction it decodes to, since rows exclude each other. -/
theorem decodesExactlyTheTableRows : Obligations.DecodesExactlyTheTableRows :=
  fun w => ⟨fun _ hr => admits_iff_decode hr, decode_eq_illegal_iff_no_row w⟩

/-- Settles O4: the tree leaves over no word outside the enumeration, and no row fits a word inside it. -/
theorem illegalWordsByFamily : Obligations.IllegalWordsByFamily := fun w =>
  ⟨inIllegalFamily_of_decode, fun h =>
    (decode_eq_illegal_iff_no_row w).mpr fun r hr => Bool.eq_false_iff.mpr (not_admits_of_inIllegalFamily h r hr)⟩

/-- Settles O5: the spec's eight example words are the encodings of their instructions. -/
theorem specWordsDecodeToTheirInstructions : Obligations.SpecWordsDecodeToTheirInstructions :=
  ⟨decode_encode .cls, decode_encode (.call 0x300), decode_encode (.seImm 3 0x10), decode_encode (.shr 3 4),
    decode_encode (.rnd 3 0x0F), decode_encode (.drw 0 1 2), decode_encode (.stRegs 2), decode_encode (.skp 2)⟩

/-- Settles O6: a line in range assembles to the instruction with its operands, and no other line assembles. -/
theorem wellFormedLinesAssemble : Obligations.WellFormedLinesAssemble := by
  intro l
  refine ⟨⟨fun hl => ?_, fun ⟨i, hi⟩ => wellFormed_of_assemble hi⟩, fun i hi => ?_⟩
  · obtain ⟨i, hi, -, -⟩ := exists_instr_of_operandsOk hl
    exact ⟨i, (assemble_of_wellFormed hl).trans hi⟩
  · have hl := wellFormed_of_assemble hi
    obtain ⟨j, hj, hop, hfields⟩ := exists_instr_of_operandsOk hl
    obtain rfl : j = i := Option.some.inj (hj.symm.trans ((assemble_of_wellFormed hl).symm.trans hi))
    exact ⟨hop, hfields⟩

end Sys2Proof.Machine
end

section
/-! PROOFS for spec/10_state.md: what an instruction can change, said once for every instruction, and the table of writers. -/

namespace Sys2Proof.Machine

/-! ### What an instruction can do -/

/-- The instructions that may write `VF` (spec/10_state.md R21): the flag writers, those that name it, and Fx65 up to it. -/
def MayWriteFlag (i : Instr) : Prop :=
  i.op ∈ [.addReg, .subReg, .shr, .subnReg, .shl, .drw] ∨ (∃ kk, i = .ldImm 15 kk) ∨ (∃ kk, i = .addImm 15 kk) ∨
  (∃ y, i = .ldReg 15 y) ∨ (∃ y, i = .orReg 15 y) ∨ (∃ y, i = .andReg 15 y) ∨ (∃ y, i = .xorReg 15 y) ∨
  (∃ kk, i = .rnd 15 kk) ∨ i = .ldVxDT 15 ∨ i = .ldVxK 15 ∨ i = .ldRegs 15

/-- The operations that set `pc` themselves (spec/10_state.md R24). -/
def controlOps : List Op := [.ret, .jp, .call, .jpV0, .seImm, .sneImm, .seReg, .sneReg, .skp, .sknp]

/-- What an instruction that takes no fault may have changed (spec/10_state.md R33, the columns of writers). A field that an
update does not touch is as before by rfl, so each proof names only what its instruction writes. -/
structure Executed (i : Instr) (s t : State) : Prop where
  i_eq : i.op ≠ .ldI → i.op ≠ .addI → i.op ≠ .ldF → t.i = s.i := by intros; rfl
  sp_eq : i.op ≠ .call → i.op ≠ .ret → t.sp = s.sp := by intros; rfl
  stack_eq : i.op ≠ .call → i.op ≠ .ret → t.stack = s.stack := by intros; rfl
  dt_eq : i.op ≠ .ldDTVx → t.dt = s.dt := by intros; rfl
  st_eq : i.op ≠ .ldSTVx → t.st = s.st := by intros; rfl
  held_eq : t.held = s.held := by rfl
  mem_eq : i.op ≠ .ldB → i.op ≠ .stRegs → t.mem = s.mem := by intros; rfl
  mem_wf : s.mem.wf = true → t.mem.wf = true := by exact id
  disp_eq : i.op ≠ .cls → i.op ≠ .drw → t.disp = s.disp := by intros; rfl
  flag_eq : ¬ MayWriteFlag i → t.getV 15 = s.getV 15 := by intros; rfl
  pc_eq : i.op ∉ controlOps → t.pc = s.pc := by intros; rfl
  run_eq : t.run = s.run ∨ ∃ x, i = .ldVxK x ∧ t.run = .awaitingKey x := by exact .inl rfl

/-- The faults an instruction can take, each with its cause (spec/60_exceptions.md R300). -/
inductive TakesFault (s : State) : Instr → Fault → Prop where
  | underflow : s.sp.val = 0 → TakesFault s .ret (.stackUnderflow .pop 0 s.instrAddr)
  | overflow (nnn : Addr12) : s.sp.val = 16 → TakesFault s (.call nnn) (.stackOverflow .push 16 s.instrAddr)
  | read (i : Instr) : i.op = .drw ∨ i.op = .ldRegs → ReachesBeyond s i →
      TakesFault s i (overrun .read s.i.toNat s.instrAddr)
  | write (i : Instr) : i.op = .ldB ∨ i.op = .stRegs → ReachesBeyond s i →
      TakesFault s i (overrun .write s.i.toNat s.instrAddr)

/-- An instruction is executed, or takes a fault that undoes it (spec/60_exceptions.md R304). -/
def ExecutedOrFaulted (i : Instr) (s : State) (o : Answer) : Prop :=
  (∃ t, o = .next t ∧ Executed i s t) ∨ ∃ f, TakesFault s i f ∧ o = .next (s.haltAt s.instrAddr f)

/-! ### The updates instructions are made of -/

theorem executed_setV {i : Instr} {x : Reg} (s : State) (b : Byte) (h : x = 15 → MayWriteFlag i) :
    Executed i s (s.setV x b) where
  flag_eq hi := State.getV_setV_of_ne s (fun e => hi (h e.symm)) b

theorem executed_setFlagAndV {i : Instr} (s : State) (f : Byte) (x : Reg) (b : Byte) (h : MayWriteFlag i) :
    Executed i s (s.setFlagAndV f x b) where
  flag_eq hi := absurd h hi

theorem executed_setPc {i : Instr} (s : State) (w : Word) (h : i.op ∈ controlOps) : Executed i s (s.setPc w) where
  pc_eq hi := absurd h hi

theorem executed_skipIf {i : Instr} (s : State) (c : Bool) (h : i.op ∈ controlOps) : Executed i s (s.skipIf c) := by
  rw [State.skipIf_eq]
  exact executed_setPc s _ h

/-- An update after a query of the current key, which only counts the draw (log 7). -/
theorem executed_currentKey_skipIf {i : Instr} (s : State) (c : Bool) (h : i.op ∈ controlOps) :
    Executed i s (s.currentKey.2.skipIf c) := by
  rw [State.skipIf_eq]
  rcases s.currentKey_cases with ⟨-, hk⟩ | ⟨k, -, hk⟩ <;> rw [hk] <;> exact { pc_eq := fun hi => absurd h hi }

theorem executed_loadV (x : Reg) (s : State) (bs : List Byte) (h : bs.length = x.val + 1) :
    Executed (.ldRegs x) s (s.loadV 0 bs) := by
  have hflag : ¬ MayWriteFlag (.ldRegs x) → (s.loadV 0 bs).getV 15 = s.getV 15 := fun hi => by
    have hx : x.val ≠ 15 := fun e => hi (by simp [MayWriteFlag, Fin.ext_iff, e])
    rw [State.getV_loadV, dif_neg (by omega)]
  rw [State.loadV_frame] at hflag ⊢
  exact { flag_eq := hflag }

/-- An instruction whose accesses are checked first (spec/20_memory.md R51). -/
theorem executedOrFaulted_withAccess {i : Instr} {access : Access} {s : State} {go : Answer}
    (hgo : ExecutedOrFaulted i s go)
    (hf : ReachesBeyond s i → TakesFault s i (overrun access s.i.toNat s.instrAddr)) :
    ExecutedOrFaulted i s (withAccess access s.i.toNat (accessSpan i) s go) := by
  rcases withAccess_cases access s.i.toNat (accessSpan i) s go with ⟨-, h⟩ | ⟨⟨h0, hlt⟩, h⟩ <;> rw [h]
  · exact hgo
  · exact .inr ⟨_, hf ⟨h0, by omega⟩, rfl⟩

/-! ### The instructions -/

theorem executedOrFaulted_ret (s : State) : ExecutedOrFaulted .ret s (execRet s) := by
  unfold execRet
  rcases s.pop_cases with ⟨hsp, hpop⟩ | ⟨hsp, hpop⟩ <;> rw [hpop]
  · exact .inr ⟨_, .underflow hsp, rfl⟩
  · exact .inl ⟨_, rfl, { sp_eq := fun _ h => absurd rfl h, pc_eq := fun h => absurd (by decide) h }⟩

theorem executedOrFaulted_call (nnn : Addr12) (s : State) : ExecutedOrFaulted (.call nnn) s (execCall nnn s) := by
  unfold execCall
  rcases s.push_cases s.pc with ⟨hsp, hpush⟩ | ⟨hsp, hpush⟩ <;> rw [hpush]
  · exact .inr ⟨_, .overflow nnn hsp, rfl⟩
  · refine .inl ⟨_, rfl, { sp_eq := fun h => absurd rfl h, stack_eq := fun h => absurd rfl h, pc_eq := fun h => ?_ }⟩
    exact absurd (by decide : Op.call ∈ controlOps) h

/-- Under wrap no draw is rejected (spec/42_display.md R176). -/
theorem executedOrFaulted_drw (x y : Reg) (n : Rows) (s : State) :
    ExecutedOrFaulted (.drw x y n) s (execDrw x y n s) := by
  refine executedOrFaulted_withAccess (i := .drw x y n) (.inl ⟨_, rfl, ?_⟩) (.read _ (.inl rfl))
  exact { disp_eq := fun _ h => absurd rfl h, flag_eq := fun h => absurd (by simp [MayWriteFlag, Instr.op]) h }

theorem executedOrFaulted_storeBytes {i : Instr} (s : State) (bs : List Byte) (h : i.op = .ldB ∨ i.op = .stRegs) :
    ExecutedOrFaulted i s (withAccess .write s.i.toNat (accessSpan i) s (.next (s.storeBytes s.i.toNat bs))) := by
  refine executedOrFaulted_withAccess (.inl ⟨_, rfl, ?_⟩) (.write _ h)
  exact { mem_eq := fun hb hs => absurd h (by simp [hb, hs]), mem_wf := Memory.writeBytes_wf bs s.mem s.i.toNat }

theorem executedOrFaulted_ldRegs (x : Reg) (s : State) : ExecutedOrFaulted (.ldRegs x) s (execLdRegs x s) :=
  executedOrFaulted_withAccess (i := .ldRegs x)
    (.inl ⟨_, rfl, executed_loadV x s _ (Memory.readBytes_length _ _ _)⟩) (.read _ (.inr rfl))

theorem executedOrFaulted_ldVxK (x : Reg) (s : State) : ExecutedOrFaulted (.ldVxK x) s (execLdVxK x s) := by
  unfold execLdVxK
  rcases s.currentKey_cases with ⟨-, hk⟩ | ⟨k, -, hk⟩ <;> rw [hk]
  · exact .inl ⟨_, rfl, { run_eq := .inr ⟨x, rfl, rfl⟩ }⟩
  · refine .inl ⟨_, rfl, { flag_eq := fun hi => State.getV_setV_of_ne _ ?_ _ }⟩
    rintro rfl
    exact hi (by simp [MayWriteFlag])

theorem exec_executedOrFaulted (i : Instr) (s : State) : ExecutedOrFaulted i s (exec i s) := by
  cases i with
  | ret => exact executedOrFaulted_ret s
  | call nnn => exact executedOrFaulted_call nnn s
  | drw x y n => exact executedOrFaulted_drw x y n s
  | ldB x | stRegs x => exact executedOrFaulted_storeBytes s _ (by simp [Instr.op])
  | ldRegs x => exact executedOrFaulted_ldRegs x s
  | ldVxK x => exact executedOrFaulted_ldVxK x s
  | cls => exact .inl ⟨_, rfl, { disp_eq := fun h => absurd rfl h }⟩
  | jp | jpV0 => exact .inl ⟨_, rfl, executed_setPc s _ (by simp [controlOps, Instr.op])⟩
  | seImm | sneImm | seReg | sneReg => exact .inl ⟨_, rfl, executed_skipIf s _ (by simp [controlOps, Instr.op])⟩
  | skp | sknp => exact .inl ⟨_, rfl, executed_currentKey_skipIf s _ (by simp [controlOps, Instr.op])⟩
  | ldImm | addImm | ldReg | orReg | andReg | xorReg | ldVxDT =>
    exact .inl ⟨_, rfl, executed_setV s _ (by rintro rfl; simp [MayWriteFlag])⟩
  | rnd x kk =>
    have h : x = 15 → MayWriteFlag (.rnd x kk) := by
      rintro rfl
      simp [MayWriteFlag]
    exact .inl ⟨_, rfl, { flag_eq := (executed_setV s _ h).flag_eq }⟩
  | addReg | subReg | shr | subnReg | shl =>
    exact .inl ⟨_, rfl, executed_setFlagAndV s _ _ _ (by simp [MayWriteFlag, Instr.op])⟩
  | ldI => exact .inl ⟨_, rfl, { i_eq := fun h => absurd rfl h }⟩
  | addI => exact .inl ⟨_, rfl, { i_eq := fun _ h => absurd rfl h }⟩
  | ldF => exact .inl ⟨_, rfl, { i_eq := fun _ _ h => absurd rfl h }⟩
  | ldDTVx => exact .inl ⟨_, rfl, { dt_eq := fun h => absurd rfl h }⟩
  | ldSTVx => exact .inl ⟨_, rfl, { st_eq := fun h => absurd rfl h }⟩

theorem cases_of_exec {i : Instr} {s t : State} (h : exec i s = .next t) :
    Executed i s t ∨ ∃ f, TakesFault s i f ∧ t = s.haltAt s.instrAddr f := by
  rcases exec_executedOrFaulted i s with ⟨u, hu, he⟩ | ⟨f, hf, hu⟩
  · obtain rfl : u = t := Host.Outcome.next.inj (hu.symm.trans h)
    exact .inl he
  · exact .inr ⟨f, hf, Host.Outcome.next.inj (h.symm.trans hu)⟩

theorem exists_next_of_exec (i : Instr) (s : State) : ∃ t, exec i s = .next t := by
  rcases exec_executedOrFaulted i s with ⟨t, ht, -⟩ | ⟨f, -, ht⟩ <;> exact ⟨_, ht⟩

/-! ### The table of writers -/

/-- Polling a key changes a register, the run state and the draw counter only (spec/44_timer_input.md R241). -/
theorem pollKey_cases (x : Reg) (s : State) :
    ((∀ k, s.held.get k = false) ∧ pollKey x s = .next s) ∨
    ∃ k, s.held.get k = true ∧
      pollKey x s = .next ((({ s with keyDraws := s.keyDraws + 1 } : State).setV x (keyByte k)).setRun .running) := by
  unfold pollKey
  rcases s.currentKey_cases with ⟨hno, hk⟩ | ⟨k, hheld, hk⟩ <;> rw [hk]
  · exact .inl ⟨hno, rfl⟩
  · exact .inr ⟨k, hheld, rfl⟩

theorem mem_and_disp_of_step_awaiting {x : Reg} {s t : State} (hrun : s.run = .awaitingKey x) (h : step s = .next t) :
    t.mem = s.mem ∧ t.disp = s.disp := by
  rw [step_awaiting hrun] at h
  rcases pollKey_cases x s with ⟨-, hp⟩ | ⟨k, -, hp⟩ <;> rw [hp] at h <;> cases h <;> exact ⟨rfl, rfl⟩

theorem eq_of_step_halted {f : Fault} {s t : State} (hrun : s.run = .halted f) (h : step s = .next t) : t = s := by
  rw [step_halted hrun] at h
  exact (Host.Outcome.next.inj h).symm

/-- Settles O14: the causes of a fault name their operations. -/
theorem onlySixOperationsFault : Obligations.OnlySixOperationsFault := by
  intro i s t f hrun h hhalt
  rcases cases_of_exec h with he | ⟨g, hg, -⟩
  · rcases he.run_eq with e | ⟨x, -, e⟩ <;> simp [hhalt, hrun] at e
  · cases hg with
    | underflow => exact .inl rfl
    | overflow => exact .inr (.inl rfl)
    | read _ hop | write _ hop => rcases hop with e | e <;> simp [e]

/-- Settles O19: no other instruction writes `disp`, and a fault undoes nothing there. -/
theorem onlyClearAndDrawChangeTheDisplay : Obligations.OnlyClearAndDrawChangeTheDisplay := by
  refine ⟨fun i s t hcls hdrw h => ?_, fun k p s => ⟨keepsDisplay_of_eq rfl, keepsDisplay_of_eq rfl⟩,
    fun x s t hrun h => ?_, fun f s t hrun h => ?_⟩
  · rcases cases_of_exec h with he | ⟨f, -, rfl⟩
    · exact keepsDisplay_of_eq (he.disp_eq hcls hdrw)
    · exact keepsDisplay_of_eq (State.haltAt_disp s _ f)
  · exact keepsDisplay_of_eq (mem_and_disp_of_step_awaiting hrun h).2
  · exact keepsDisplay_of_eq (by rw [eq_of_step_halted hrun h])

/-- Settles O20: no other instruction writes `mem`. -/
theorem onlyTwoStoresChangeMemory : Obligations.OnlyTwoStoresChangeMemory := by
  refine ⟨fun i s t hldB hst h => ?_, fun k p s => ⟨keepsMemory_of_eq rfl, keepsMemory_of_eq rfl⟩,
    fun x s t hrun h => ?_, fun f s t hrun h => ?_⟩
  · rcases cases_of_exec h with he | ⟨f, -, rfl⟩
    · exact keepsMemory_of_eq (he.mem_eq hldB hst)
    · exact keepsMemory_of_eq (State.haltAt_mem s _ f)
  · exact keepsMemory_of_eq (mem_and_disp_of_step_awaiting hrun h).1
  · exact keepsMemory_of_eq (by rw [eq_of_step_halted hrun h])

/-- Settles O21: the columns of `Executed`; a fault writes `pc` and `run` only. -/
theorem eachRegisterHasItsOwnWriters : Obligations.EachRegisterHasItsOwnWriters := by
  intro i s t h
  rcases cases_of_exec h with he | ⟨f, -, rfl⟩
  · refine ⟨he.i_eq, fun hcall hret => ⟨he.sp_eq hcall hret, fun k => ?_⟩, he.dt_eq, he.st_eq, fun k => ?_⟩
    · rw [he.stack_eq hcall hret]
    · rw [he.held_eq]
  · exact ⟨fun _ _ _ => rfl, fun _ _ => ⟨rfl, fun _ => rfl⟩, fun _ => rfl, fun _ => rfl, fun _ => rfl⟩

/-- Settles O22: the hypotheses exclude each way to write `VF`. -/
theorem flagHasNoOtherWriters : Obligations.FlagHasNoOtherWriters := by
  intro i s t h hop hldImm haddImm hldReg hor hand hxor hrnd hdt hkey hload
  rcases cases_of_exec h with he | ⟨f, -, rfl⟩
  · refine he.flag_eq ?_
    simp only [MayWriteFlag, not_or, not_exists]
    exact ⟨hop, hldImm, haddImm, hldReg, hor, hand, hxor, hrnd, hdt, hkey, hload⟩
  · exact State.getV_haltAt s _ f 15

/-- Settles O23: without a fault only the control operations write `pc`, and only Fx0A writes `run`. -/
theorem onlyControlInstructionsMovePc : Obligations.OnlyControlInstructionsMovePc := by
  intro i s t h hrun
  rcases cases_of_exec h with he | ⟨f, -, rfl⟩
  · refine ⟨he.pc_eq, fun hop => he.run_eq.resolve_right ?_⟩
    rintro ⟨x, rfl, -⟩
    exact hop rfl
  · exact absurd rfl (hrun f)

end Sys2Proof.Machine
end

section
/-! PROOFS for spec/60_exceptions.md and spec/70_reset_and_hazards.md: what one step can do, and the invariants of the block. -/

namespace Sys2Proof.Machine

/-! ### One step -/

/-- The three ends of a running block's step (spec/30_encoding.md R77, R78). -/
theorem runCycle_cases (s : State) :
    (0xFFE < s.pc.toNat ∧
      runCycle s = .next (s.setRun (.halted (.addressOverrun .fetch (max s.pc.toNat 0x1000) s.pc)))) ∨
    (s.pc.toNat ≤ 0xFFE ∧ ∃ w, s.wordAt s.pc.toNat = w ∧ decode w = .illegal w ∧
      runCycle s = .next (s.setRun (.halted (.decodeError w s.pc)))) ∨
    ∃ i, DecodesAt s s.pc i ∧ runCycle s = exec i s.advance := by
  rcases Nat.lt_or_ge 0xFFE s.pc.toNat with hpc | hpc
  · have haddr : (if s.pc.toNat = 0xFFF then s.pc.toNat + 1 else s.pc.toNat) = max s.pc.toNat 0x1000 := by
      split <;> omega
    refine .inl ⟨hpc, ?_⟩
    rw [runCycle, fetch_of_lt hpc, haddr]
    rfl
  · rcases decode_cases (s.wordAt s.pc.toNat) with ⟨i, hi⟩ | hillegal
    · exact .inr (.inr ⟨i, ⟨hpc, hi⟩, runCycle_of_instr hpc hi⟩)
    · exact .inr (.inl ⟨hpc, _, rfl, hillegal, runCycle_of_illegal hpc hillegal⟩)

/-- What a step of a running block leaves: the fault of the fetch or the decoder, or what its instruction leaves. -/
inductive Ran (s t : State) : Prop where
  | fetchFault : 0xFFE < s.pc.toNat →
      t = s.setRun (.halted (.addressOverrun .fetch (max s.pc.toNat 0x1000) s.pc)) → Ran s t
  | decodeFault (w : Word) : s.pc.toNat ≤ 0xFFE → s.wordAt s.pc.toNat = w → decode w = .illegal w →
      t = s.setRun (.halted (.decodeError w s.pc)) → Ran s t
  | executed (i : Instr) : DecodesAt s s.pc i → Executed i s.advance t → Ran s t
  | faulted (i : Instr) (f : Fault) : DecodesAt s s.pc i → TakesFault s.advance i f → t = s.setRun (.halted f) → Ran s t

theorem ran_of_step {s t : State} (hrun : s.run = .running) (h : step s = .next t) : Ran s t := by
  rw [step_running hrun] at h
  rcases runCycle_cases s with ⟨hpc, hr⟩ | ⟨hpc, w, hw, hd, hr⟩ | ⟨i, hi, hr⟩ <;> rw [hr] at h
  · exact .fetchFault hpc (Host.Outcome.next.inj h).symm
  · exact .decodeFault w hpc hw hd (Host.Outcome.next.inj h).symm
  · rcases cases_of_exec h with he | ⟨f, hf, ht⟩
    · exact .executed i hi he
    · exact .faulted i f hi hf (by rw [ht, State.instrAddr_advance, State.haltAt_advance])

/-- Settles O11: each run state's step ends in a next state, a fault included. -/
theorem everyStepAnswersANextState : Obligations.EveryStepAnswersANextState := by
  intro s
  cases hrun : s.run with
  | running =>
    rw [step_running hrun]
    rcases runCycle_cases s with ⟨-, hr⟩ | ⟨-, w, -, -, hr⟩ | ⟨i, -, hr⟩ <;> rw [hr]
    · exact ⟨_, rfl⟩
    · exact ⟨_, rfl⟩
    · exact exists_next_of_exec i s.advance
  | awaitingKey x =>
    rw [step_awaiting hrun]
    rcases pollKey_cases x s with ⟨-, hp⟩ | ⟨k, -, hp⟩ <;> exact ⟨_, hp⟩
  | halted f => exact ⟨s, step_halted hrun⟩

/-! ### Faults -/

/-- A fault records the address of the instruction that took it (decision D19). -/
theorem pc?_of_takesFault {i : Instr} {s : State} {f : Fault} (h : TakesFault s i f) : f.pc? = some s.instrAddr := by
  cases h <;> rfl

/-- Settles O8: the decode fault writes `run` only, and a halted step writes nothing. -/
theorem illegalWordHaltsWithPcUnchanged : Obligations.IllegalWordHaltsWithPcUnchanged := by
  rintro s _ hrun hpc rfl hd
  have hstep : step s = .next (s.setRun (.halted (.decodeError (s.wordAt s.pc.toNat) s.pc))) := by
    rw [step_running hrun, runCycle_of_illegal hpc hd]
    rfl
  exact ⟨_, hstep, rfl, rfl, rfl, step_halted (State.setRun_run s _)⟩

/-- Settles O9: the fetch bound is checked before anything is read. -/
theorem fetchBeyondMemoryHalts : Obligations.FetchBeyondMemoryHalts := by
  intro s hrun hpc
  have haddr : (if s.pc = 0xFFF#16 then 0x1000 else s.pc.toNat) =
      if s.pc.toNat = 0xFFF then s.pc.toNat + 1 else s.pc.toNat := by
    have hlast : s.pc = 0xFFF#16 ↔ s.pc.toNat = 0xFFF := BitVec.toNat_inj.symm
    simp only [hlast]
    split <;> omega
  rw [haddr, step_running hrun, runCycle, fetch_of_lt hpc]
  rfl

/-- Settles O10: each way a running step can halt is one `setRun`, after `takeFault` undid the pre-advance. -/
theorem faultedStepChangesOnlyTheRunState : Obligations.FaultedStepChangesOnlyTheRunState := by
  intro s t f hrun h hhalt
  have hsame : ∀ g, t = s.setRun (.halted g) → g.pc? = some s.pc →
      t = { s with run := .halted f } ∧ f.pc? = some s.pc := by
    rintro g rfl hg
    obtain rfl : g = f := RunState.halted.inj hhalt
    exact ⟨rfl, hg⟩
  cases ran_of_step hrun h with
  | fetchFault _ ht => exact hsame _ ht rfl
  | decodeFault w _ _ _ ht => exact hsame _ ht rfl
  | executed i _ he =>
    rcases he.run_eq with e | ⟨x, -, e⟩ <;> simp [hhalt, hrun] at e
  | faulted i g _ hg ht => exact hsame g ht (by rw [pc?_of_takesFault hg, State.instrAddr_advance])

/-- Settles O12: a halted step is the identity, and the host operations do not read `run`. -/
theorem haltedBlockStaysHalted : Obligations.HaltedBlockStaysHalted := by
  intro s f k p hrun
  have hreport : s.report = .fault f := by rw [State.report, hrun]
  exact ⟨step_halted hrun, hreport, hrun, tickTimer_toNat s.dt, hrun, get_held_setKeyState_self k p s⟩

theorem opNNN_toNat (w : Word) : (opNNN w).toNat = w.toNat % 0x1000 := by
  rw [opNNN, BitVec.extractLsb'_toNat, Nat.shiftRight_zero]

/-- `0x1000 + a` is the word of a jump to `a` (spec/70_reset_and_hazards.md R349). -/
theorem decode_jump_to {a : Word} (h : a.toNat ≤ 0xFFE) :
    ∃ nnn, decode (0x1000#16 + a) = .instr (.jp nnn) ∧ zextAddr nnn = a := by
  have hsum : (0x1000#16 + a).toNat = 0x1000 + a.toNat := BitVec.toNat_add_of_lt (by simp; omega)
  have hH : opH (0x1000#16 + a) = 0x1#4 := BitVec.eq_of_toNat_eq (by rw [opH_toNat, hsum]; simp; omega)
  refine ⟨opNNN (0x1000#16 + a), ?_, BitVec.eq_of_toNat_eq ?_⟩
  · rw [← decode_wordNNN_1, wordNNN_of_opH hH]
  · rw [zextAddr_toNat, opNNN_toNat, hsum]
    omega

/-- Settles O13: a halt lasts, a jump to its own address undoes the pre-advance, and a poll without a key is the identity. -/
theorem quiescentStatesAreFixed : Obligations.QuiescentStatesAreFixed := by
  rintro s (⟨f, hrun⟩ | ⟨hrun, hpc, hw⟩ | ⟨x, hrun, hno⟩)
  · exact step_halted hrun
  · obtain ⟨nnn, hd, htarget⟩ := decode_jump_to hpc
    rw [step_running hrun, runCycle_of_instr hpc (hw ▸ hd), exec_jp, htarget]
    rfl
  · rw [step_awaiting hrun]
    rcases pollKey_cases x s with ⟨-, hp⟩ | ⟨k, hk, -⟩
    · exact hp
    · rw [← State.mem_heldKeys, hno] at hk
      cases hk

/-! ### The invariants -/

theorem step_keeps_memoryCanonical {s t : State} (hs : MemoryCanonical s) (h : step s = .next t) : MemoryCanonical t := by
  unfold MemoryCanonical at *
  cases hrun : s.run with
  | running =>
    cases ran_of_step hrun h with
    | fetchFault _ ht | decodeFault _ _ _ _ ht | faulted _ _ _ _ ht =>
      rw [ht]
      exact hs
    | executed i _ he => exact he.mem_wf hs
  | awaitingKey x => rwa [(mem_and_disp_of_step_awaiting hrun h).1]
  | halted f => rwa [eq_of_step_halted hrun h]

/-- Settles O15: of the ways a step ends only the two stores write memory, byte by byte in the canonical form. -/
theorem stepKeepsMemoryCanonical : Obligations.StepKeepsMemoryCanonical :=
  fun _ _ => step_keeps_memoryCanonical

/-- The recorded fault of an instruction still shows its cause, since only `run` was written (decision D7). -/
theorem faultFits_of_takesFault {s : State} {i : Instr} {f : Fault} (hi : DecodesAt s s.pc i)
    (h : TakesFault s.advance i f) : FaultFits (s.setRun (.halted f)) f := by
  cases h with
  | underflow hsp =>
    rw [State.instrAddr_advance]
    exact ⟨rfl, rfl, hsp, rfl, hi⟩
  | overflow nnn hsp =>
    rw [State.instrAddr_advance]
    exact ⟨rfl, rfl, hsp, rfl, nnn, hi⟩
  | read _ hop hreach | write _ hop hreach =>
    rw [State.instrAddr_advance]
    exact ⟨rfl, rfl, i, hi, hop, hreach⟩

/-- An `Fx0A` that awaits a key has advanced `pc` past itself and changed nothing it could be decoded from (R240). -/
theorem runFits_of_executed {i : Instr} {s t : State} (hrun : s.run = .running) (hi : DecodesAt s s.pc i)
    (he : Executed i s.advance t) : RunFits t := by
  unfold RunFits
  rcases he.run_eq with e | ⟨x, rfl, e⟩
  · rw [e, State.advance_run, hrun]
    trivial
  · have hpc : t.pc = s.pc + 2 := he.pc_eq (by simp [controlOps, Instr.op])
    have hmem : t.mem = s.mem := he.mem_eq nofun nofun
    obtain ⟨hle, hd⟩ := hi
    have hsub : s.pc + 2 - 2 = s.pc := by simp
    rw [e, hpc]
    refine ⟨by bv_omega, ?_⟩
    rw [hsub]
    refine ⟨hle, ?_⟩
    rw [← hd, State.wordAt, State.byteAt, State.byteAt, hmem]
    rfl

theorem step_keeps_runFits {s t : State} (hs : RunFits s) (h : step s = .next t) : RunFits t := by
  cases hrun : s.run with
  | running =>
    cases ran_of_step hrun h with
    | fetchFault hpc ht =>
      rw [ht]
      exact ⟨rfl, hpc, rfl⟩
    | decodeFault w hpc hw hd ht =>
      rw [ht]
      exact ⟨rfl, hpc, hw, hd⟩
    | executed i hi he => exact runFits_of_executed hrun hi he
    | faulted i f hi hf ht =>
      rw [ht]
      exact faultFits_of_takesFault hi hf
  | awaitingKey x =>
    rw [step_awaiting hrun] at h
    rcases pollKey_cases x s with ⟨-, hp⟩ | ⟨k, -, hp⟩ <;> rw [hp] at h <;> cases h
    · exact hs
    · trivial
  | halted f => rwa [eq_of_step_halted hrun h]

/-- Settles O16: each way a step ends leaves a run state that fits. -/
theorem stepKeepsTheRunStateFitting : Obligations.StepKeepsTheRunStateFitting :=
  fun _ _ => step_keeps_runFits

/-! ### The block and its host -/

/-- No recorded fault speaks of a timer or a key. -/
theorem runFits_of_timers_held {s : State} (h : RunFits s) (dt st : Byte) (held : Vector Bool 16) :
    RunFits { s with dt := dt, st := st, held := held } := by
  unfold RunFits at *
  cases hrun : s.run with
  | running => trivial
  | awaitingKey x =>
    rw [hrun] at h
    exact h
  | halted f =>
    rw [hrun] at h
    cases f with
    | addressOverrun access address a => cases access <;> exact h
    | _ => exact h

/-- A failed load is a fault of its ROM that fits whatever the state. -/
theorem loadFault_eq_some {rom : RomImage} {f : Fault} (h : loadFault rom = some f) :
    ∃ reason n, f = .romLoadFailure reason n ∧ (reason = .oversize → 3584 < n) := by
  unfold loadFault at h
  split at h
  · cases h
    exact ⟨_, _, rfl, nofun⟩
  · split at h
    · next hlen =>
      cases h
      exact ⟨_, _, rfl, fun _ => hlen⟩
    · cases h

theorem fits_initialState {p : InitParams} (hp : p.memory.wf = true) (rom : List Byte) (m n : Nat) :
    (Block.live (initialState p rom m n)).Fits :=
  ⟨initMemory_wf p rom hp, trivial⟩

theorem fits_initialise {p : InitParams} (hp : p.memory.wf = true) (rom : RomImage) {s : State} (hs : MemoryCanonical s) :
    (Block.live (initialise p rom s)).Fits := by
  cases hl : loadFault rom with
  | none =>
    rw [initialise_of_none hl]
    exact fits_initialState hp _ _ _
  | some f =>
    obtain ⟨reason, n, rfl, hfits⟩ := loadFault_eq_some hl
    rw [initialise_of_some hl]
    exact ⟨hs, hfits⟩

theorem fits_of_performLoad {p : InitParams} (hp : p.memory.wf = true) {rom : RomImage} {b : Block} {r : Option Report}
    (h : performLoad p rom = .next (b, r)) : b.Fits := by
  unfold performLoad at h
  split at h <;> cases h
  · next f hl =>
    intro g hg
    cases hg
    obtain ⟨reason, n, hf, -⟩ := loadFault_eq_some hl
    exact ⟨reason, n, hf⟩
  · exact fits_initialState hp _ _ _

theorem perform_keeps_fits {op : HostOp} {b b' : Block} {r : Option Report} (hb : b.Fits) (hop : op.Fits)
    (h : Block.perform op b = .next (b', r)) : b'.Fits := by
  cases b with
  | unloaded failure =>
    cases op with
    | initialise p rom => exact fits_of_performLoad hop h
    | step =>
      cases failure with
      | none => cases h
      | some f =>
        cases h
        exact hb
    | tick | setKeyState => cases h
  | live s =>
    obtain ⟨hmem, hrun⟩ := hb
    cases op with
    | initialise p rom =>
      cases h
      exact fits_initialise hop rom hmem
    | tick =>
      cases h
      exact ⟨hmem, runFits_of_timers_held hrun _ _ _⟩
    | setKeyState k p =>
      cases h
      exact ⟨hmem, runFits_of_timers_held hrun _ _ _⟩
    | step =>
      obtain ⟨t, ht⟩ := everyStepAnswersANextState s
      rw [Block.perform, performStep, ht] at h
      cases h
      exact ⟨step_keeps_memoryCanonical hmem ht, step_keeps_runFits hrun ht⟩

/-- Settles O17: by induction on the operations, each of which keeps the block fitting. -/
theorem hostOperationsKeepTheBlockFitting : Obligations.HostOperationsKeepTheBlockFitting := by
  intro ops
  induction ops with
  | nil =>
    intro b b' hb _ h
    cases h
    exact hb
  | cons op ops ih =>
    intro b b' hb hops h
    obtain ⟨hop, hrest⟩ := List.forall_mem_cons.mp hops
    rw [Block.runOps] at h
    split at h
    · next c r hc => exact ih c b' (perform_keeps_fits hb hop hc) hrest h
    · cases h
    · cases h

/-- Settles O18: reset lists no cell and is running. -/
theorem resetMeetsTheInvariants : Obligations.ResetMeetsTheInvariants :=
  ⟨rfl, trivial, rfl, trivial⟩

end Sys2Proof.Machine
end

section
/-! PROOFS for spec/40_control.md: the call stack and the skips. -/

namespace Sys2Proof

@[simp] theorem decode_wordXKK_3 (x : Reg) (kk : Byte) : decode (wordXKK 0x3#4 x kk) = .instr (.seImm x kk) :=
  decode_encode (.seImm x kk)

@[simp] theorem decode_wordXKK_4 (x : Reg) (kk : Byte) : decode (wordXKK 0x4#4 x kk) = .instr (.sneImm x kk) :=
  decode_encode (.sneImm x kk)

/-- Family 5 fixes the low nibble (R105, decision D2). -/
@[simp] theorem decode_wordXYN_5 (x y : Reg) (n : BitVec 4) :
    decode (wordXYN 0x5#4 x y n) = if n = 0#4 then .instr (.seReg x y) else .illegal (wordXYN 0x5#4 x y n) := by
  simp [decode]

/-- Family 9 fixes the low nibble (R106, decision D2). -/
@[simp] theorem decode_wordXYN_9 (x y : Reg) (n : BitVec 4) :
    decode (wordXYN 0x9#4 x y n) = if n = 0#4 then .instr (.sneReg x y) else .illegal (wordXYN 0x9#4 x y n) := by
  simp [decode]

end Sys2Proof

namespace Sys2Proof.Machine

/-! ### The call stack -/

/-- With a free slot CALL pushes the advanced `pc` and jumps (R102, R26). -/
theorem exec_call_of_lt (nnn : Addr12) (s : State) (h : s.sp.val < 16) :
    exec (.call nnn) s =
      .next { s with stack := s.stack.set s.sp.val s.pc h, sp := ⟨s.sp.val + 1, by omega⟩, pc := zextAddr nnn } := by
  show execCall nnn s = _
  rw [execCall, State.push, dif_pos h]
  rfl

theorem exec_call_of_full (nnn : Addr12) (s : State) (h : s.sp.val = 16) :
    exec (.call nnn) s = .next (s.haltAt s.instrAddr (.stackOverflow .push 16 s.instrAddr)) := by
  show execCall nnn s = _
  rw [execCall, State.push, dif_neg (by omega)]
  rfl

/-- With an entry on the stack RET takes it into `pc` (R100, R26). -/
theorem exec_ret_of_pos (s : State) (h : 0 < s.sp.val) :
    exec .ret s = .next { s with sp := ⟨s.sp.val - 1, by omega⟩, pc := s.stack.get ⟨s.sp.val - 1, by omega⟩ } := by
  show execRet s = _
  rw [execRet, State.pop, dif_pos h]
  rfl

theorem exec_ret_of_empty (s : State) (h : s.sp.val = 0) :
    exec .ret s = .next (s.haltAt s.instrAddr (.stackUnderflow .pop 0 s.instrAddr)) := by
  show execRet s = _
  rw [execRet, State.pop, dif_neg (by omega)]
  rfl

/-- A stack slot after a push (R26). -/
theorem get_set_stack (st : Vector Word 16) (j : Nat) (w : Word) (hj : j < 16) (k : Fin 16) :
    (st.set j w hj).get k = if k.val = j then w else st.get k := by
  rw [Vector.get_eq_getElem, Vector.getElem_set, Vector.get_eq_getElem]
  simp only [@eq_comm _ j]

/-- Settles O25: below the limit the push writes the one slot `sp` names; at the limit the fault undoes the pre-advance. -/
theorem callPushesTheReturnAddress : Obligations.CallPushesTheReturnAddress := by
  intro nnn s
  refine ⟨fun hsp => ⟨_, exec_call_of_lt nnn s hsp, zextAddr_toNat nnn, rfl, fun k hk => ?_, fun k hk => ?_, fun _ => rfl,
    rfl, ⟨rfl, rfl⟩, fun _ => rfl, fun _ _ => rfl, ⟨fun _ => rfl, rfl⟩, rfl, rfl⟩, exec_call_of_full nnn s⟩
  · exact (get_set_stack _ _ _ hsp k).trans (if_pos hk)
  · exact (get_set_stack _ _ _ hsp k).trans (if_neg hk)

/-- Settles O26: the pop reads the slot below `sp` and writes none. -/
theorem retPopsIntoThePc : Obligations.RetPopsIntoThePc := by
  intro s
  refine ⟨fun hsp => ⟨_, exec_ret_of_pos s hsp, rfl, fun k hk => ?_, fun _ => rfl, fun _ => rfl, rfl, ⟨rfl, rfl⟩,
    fun _ => rfl, fun _ _ => rfl, ⟨fun _ => rfl, rfl⟩, rfl, rfl⟩, exec_ret_of_empty s⟩
  exact congrArg s.stack.get (Fin.ext hk.symm)

/-- Settles O27: the slot RET reads is the one CALL wrote. -/
theorem retAfterCallRestoresThePc : Obligations.RetAfterCallRestoresThePc := by
  intro nnn s u hsp
  refine ⟨_, exec_call_of_lt nnn s hsp, fun husp hustack => ?_⟩
  have hdepth : u.sp.val = s.sp.val + 1 := congrArg Fin.val husp
  refine ⟨_, exec_ret_of_pos u (by omega), ?_, Fin.ext ?_, rfl⟩
  · show u.stack.get _ = s.pc
    rw [hustack, get_set_stack, if_pos]
    show u.sp.val - 1 = s.sp.val
    omega
  · show u.sp.val - 1 = s.sp.val
    omega

/-! ### The skips -/

theorem onlyPcChanges_skipIf (s : State) (c : Bool) : OnlyPcChanges s (s.skipIf c) := by
  rw [State.skipIf_eq]
  exact onlyPcChanges_setPc s _

theorem skipIf_beq_pc (s : State) (a b : Byte) : (s.skipIf (a == b)).pc = if a = b then s.pc + 2 else s.pc := by
  simp [State.skipIf_eq]

theorem skipIf_bne_pc (s : State) (a b : Byte) : (s.skipIf (a != b)).pc = if a = b then s.pc else s.pc + 2 := by
  by_cases h : a = b <;> simp [State.skipIf_eq, h]

/-- Settles O28: each skip is `skipIf` of its comparison, which moves `pc` and nothing else. -/
theorem skipsCompareRegisters : Obligations.SkipsCompareRegisters := by
  intro x y kk n s
  refine ⟨decode_wordXKK_3 x kk, decode_wordXKK_4 x kk, decode_wordXYN_5 x y n, decode_wordXYN_9 x y n, ?_, ?_, ?_, ?_⟩
  · exact ⟨_, rfl, skipIf_beq_pc s _ kk, onlyPcChanges_skipIf s _⟩
  · exact ⟨_, rfl, skipIf_bne_pc s _ kk, onlyPcChanges_skipIf s _⟩
  · exact ⟨_, rfl, skipIf_beq_pc s _ (s.getV y), onlyPcChanges_skipIf s _⟩
  · exact ⟨_, rfl, skipIf_bne_pc s _ (s.getV y), onlyPcChanges_skipIf s _⟩

end Sys2Proof.Machine
end

section
/-! PROOFS for spec/41_alu.md: loads, logic, and the instructions that write the flag. -/

namespace Sys2Proof.Machine

/-- A step that writes general registers, `pc` and draw counters only keeps the rest. -/
theorem keepsRest_of_frame {s t : State}
    (h : t = { s with v := t.v, pc := t.pc, rngDraws := t.rngDraws, keyDraws := t.keyDraws }) : KeepsRest s t := by
  rw [h]
  exact ⟨rfl, ⟨rfl, fun _ => rfl⟩, ⟨rfl, rfl⟩, fun _ => rfl, fun _ _ => rfl, fun _ => rfl, rfl⟩

/-! ### One register, no flag -/

/-- Settles O30: both loads are one `setV`. -/
theorem loadsCopyIntoARegister : Obligations.LoadsCopyIntoARegister :=
  fun x y kk s =>
    ⟨⟨_, rfl, State.getV_setV_self s x kk, onlyRegChanges_setV s x kk⟩,
      ⟨_, rfl, State.getV_setV_self s x (s.getV y), onlyRegChanges_setV s x (s.getV y)⟩⟩

/-- Settles O31: each is one `setV` of the bitwise combination of the old operands. -/
theorem logicCombinesBitwise : Obligations.LogicCombinesBitwise := by
  intro x y s
  refine ⟨⟨_, rfl, onlyRegChanges_setV s x _, fun b => ?_⟩, ⟨_, rfl, onlyRegChanges_setV s x _, fun b => ?_⟩,
    ⟨_, rfl, onlyRegChanges_setV s x _, fun b => ?_⟩⟩ <;> rw [State.getV_setV_self]
  · exact BitVec.getLsbD_or
  · exact BitVec.getLsbD_and
  · exact BitVec.getLsbD_xor

/-- Settles O35: one draw, then one `setV` of the masked byte. -/
theorem randomByteIsMaskedAndDrawnOnce : Obligations.RandomByteIsMaskedAndDrawnOnce := by
  intro x kk s
  have hbyte : (s.drawByte.2.setV x (s.drawByte.1 &&& kk)).getV x = Config.randomByte s.rngDraws &&& kk :=
    State.getV_setV_self s.drawByte.2 x _
  refine ⟨_, rfl, hbyte, rfl, rfl, fun hkk => ?_, fun r hr => ?_, rfl, keepsRest_of_frame rfl⟩
  · rw [hbyte, hkk, BitVec.and_zero]
  · exact State.getV_setV_of_ne s.drawByte.2 hr _

/-! ### The flag and a register -/

/-- `VF` first and `V[x]` second is what the spec calls a flag and a result (R143, decision D3). -/
theorem flagThenResult_setFlagAndV (s : State) (x : Reg) (flag : Bool) (b : Byte) :
    FlagThenResult x flag b.toNat s (s.setFlagAndV (flagByte flag) x b) := by
  refine ⟨?_, fun hx => ?_, fun r hrx hrf => ?_, rfl, keepsRest_of_frame rfl, rfl, rfl⟩
  · rw [State.getV_setFlagAndV, if_pos rfl]
  · rw [State.getV_setFlagAndV, if_neg (Ne.symm hx)]
    rfl
  · exact (State.getV_setFlagAndV s _ x r b).trans ((if_neg hrx).trans (if_neg hrf))

theorem subByte_toNat (a b : Byte) : (subByte a b).toNat = (a.toNat + 256 - b.toNat) % 256 := by
  rw [subByte]
  bv_omega

theorem shiftRight1_toNat (v : Byte) : (shiftRight1 v).toNat = v.toNat / 2 := by
  rw [shiftRight1, BitVec.toNat_ushiftRight, Nat.shiftRight_one]

theorem shiftLeft1_toNat (v : Byte) : (shiftLeft1 v).toNat = v.toNat * 2 % 256 := by
  rw [shiftLeft1, BitVec.toNat_shiftLeft, Nat.shiftLeft_eq]

theorem shiftRightFlag_eq (v : Byte) : shiftRightFlag v = flagByte (decide (v.toNat % 2 = 1)) := by
  rw [shiftRightFlag, BitVec.getLsbD, Nat.testBit_zero]

theorem shiftLeftFlag_eq (v : Byte) : shiftLeftFlag v = flagByte (decide (128 ≤ v.toNat)) := by
  have hmsb : v.getLsbD 7 = v.msb := (BitVec.msb_eq_getLsbD_last v).symm
  rw [shiftLeftFlag, hmsb, BitVec.msb_eq_decide]

/-- Settles O32: the carry is that of the exact sum, and `addByte` is the sum modulo 256. -/
theorem addSetsTheCarryFlag : Obligations.AddSetsTheCarryFlag := by
  intro x y s
  rw [← addByte_toNat]
  exact ⟨_, rfl, flagThenResult_setFlagAndV s x _ _⟩

/-- Settles O33: NOT borrow compares the operands the difference is of. -/
theorem subtractionsSetNotBorrow : Obligations.SubtractionsSetNotBorrow := by
  intro x y s
  rw [← subByte_toNat, ← subByte_toNat]
  exact ⟨⟨_, rfl, flagThenResult_setFlagAndV s x _ _⟩, ⟨_, rfl, flagThenResult_setFlagAndV s x _ _⟩⟩

/-- Settles O34: the meanings do not name `y`, and the lost bit is the one of weight 1 or 128. -/
theorem shiftsPutTheLostBitInTheFlag : Obligations.ShiftsPutTheLostBitInTheFlag := by
  intro x y z s
  rw [← shiftRight1_toNat, ← shiftLeft1_toNat]
  refine ⟨⟨_, rfl, rfl, ?_⟩, ⟨_, rfl, rfl, ?_⟩⟩
  · rw [shiftRightFlag_eq]
    exact flagThenResult_setFlagAndV s x _ _
  · rw [shiftLeftFlag_eq]
    exact flagThenResult_setFlagAndV s x _ _

end Sys2Proof.Machine
end

section
/-! PROOFS for spec/43_index_memory.md and spec/20_memory.md: index arithmetic and transfers with memory. -/

namespace Sys2Proof.Machine

/-! ### The index register -/

theorem indexSum_toNat (i : Word) (v : Byte) : (indexSum i v).toNat = (i.toNat + v.toNat) % 65536 := by
  rw [indexSum, BitVec.toNat_add, zextByte_toNat]

/-- Five times a byte stays below 2^16 (R202). -/
theorem glyphAddr_toNat (v : Byte) : (glyphAddr v).toNat = 5 * v.toNat := by
  have h : (zextByte v).toNat = v.toNat := zextByte_toNat v
  rw [glyphAddr]
  bv_omega

/-- Settles O43: both write `I` alone, with no check of its value. -/
theorem indexArithmeticWrapsAt16Bits : Obligations.IndexArithmeticWrapsAt16Bits := by
  intro x s
  refine ⟨⟨_, rfl, indexSum_toNat s.i (s.getV x), ?_⟩, ⟨_, rfl, glyphAddr_toNat (s.getV x), ?_⟩⟩
  all_goals
    exact ⟨fun _ => rfl, rfl, ⟨rfl, fun _ => rfl⟩, ⟨rfl, rfl⟩, fun _ => rfl, fun _ _ => rfl, ⟨fun _ => rfl, rfl⟩, rfl, rfl⟩

/-! ### Bytes after a store -/

theorem byteAt_storeBytes_add {s : State} {a : Nat} {bs : List Byte} (hm : MemoryCanonical s)
    (ha : a + bs.length ≤ 0x1000) {j : Nat} (hj : j < bs.length) : (s.storeBytes a bs).byteAt (a + j) = bs[j] := by
  have hk : a ≤ a + j ∧ a + j - a < bs.length := by omega
  rw [State.byteAt, State.storeBytes_mem, Memory.read_writeBytes bs s.mem a (a + j) hm ha, dif_pos hk]
  simp only [Nat.add_sub_cancel_left]

theorem byteAt_storeBytes_outside {s : State} {a : Nat} {bs : List Byte} (hm : MemoryCanonical s)
    (ha : a + bs.length ≤ 0x1000) {k : Nat} (hk : k < a ∨ a + bs.length ≤ k) :
    (s.storeBytes a bs).byteAt k = s.byteAt k := by
  rw [State.byteAt, State.storeBytes_mem, Memory.read_writeBytes bs s.mem a k hm ha, dif_neg (by omega)]
  rfl

theorem regsUpTo_length (s : State) (x : Reg) : (s.regsUpTo x).length = x.val + 1 := by
  rw [State.regsUpTo, List.length_take, Vector.length_toList]
  omega

theorem regsUpTo_getElem (s : State) (x r : Reg) (h : r.val < (s.regsUpTo x).length) :
    (s.regsUpTo x)[r.val] = s.getV r := by
  simp [State.regsUpTo, State.getV, Vector.get_eq_getElem]

/-! ### The transfers within memory (R51) -/

theorem exec_ldB_of_le (x : Reg) {s : State} (h : s.i.toNat + 2 ≤ 0xFFF) :
    exec (.ldB x) s = .next (s.storeBytes s.i.toNat (decimalDigits (s.getV x))) :=
  withAccess_of_le .write _ 3 s _ (.inr (by omega))

theorem exec_stRegs_of_le {x : Reg} {s : State} (h : s.i.toNat + x.val ≤ 0xFFF) :
    exec (.stRegs x) s = .next (s.storeBytes s.i.toNat (s.regsUpTo x)) :=
  withAccess_of_le .write _ (x.val + 1) s _ (.inr (by omega))

theorem exec_ldRegs_of_le {x : Reg} {s : State} (h : s.i.toNat + x.val ≤ 0xFFF) :
    exec (.ldRegs x) s = .next (s.loadV 0 (s.bytesAt s.i.toNat (x.val + 1))) :=
  withAccess_of_le .read _ (x.val + 1) s _ (.inr (by omega))

theorem byteAt_stored_register {x r : Reg} {s : State} (hm : MemoryCanonical s) (h : s.i.toNat + x.val ≤ 0xFFF)
    (hr : r.val ≤ x.val) : (s.storeBytes s.i.toNat (s.regsUpTo x)).byteAt (s.i.toNat + r.val) = s.getV r := by
  have hlen := regsUpTo_length s x
  rw [byteAt_storeBytes_add hm (by omega) (by omega), regsUpTo_getElem]

theorem getV_loaded_register {x r : Reg} (s : State) (hr : r.val ≤ x.val) :
    (s.loadV 0 (s.bytesAt s.i.toNat (x.val + 1))).getV r = s.byteAt (s.i.toNat + r.val) := by
  have hlen : (s.bytesAt s.i.toNat (x.val + 1)).length = x.val + 1 := Memory.readBytes_length _ _ _
  rw [State.getV_loadV, dif_pos (by omega)]
  exact Memory.readBytes_getElem s.mem _ _ _ _

/-- Settles O44: the three digits are the three stored bytes. -/
theorem decimalDigitsAreStoredAtI : Obligations.DecimalDigitsAreStoredAtI := by
  intro x s hm hi
  have hlen : (decimalDigits (s.getV x)).length = 3 := rfl
  have hv : (s.getV x).toNat < 256 := (s.getV x).isLt
  have hbyte : ∀ j (hj : j < 3), (s.storeBytes s.i.toNat (decimalDigits (s.getV x))).byteAt (s.i.toNat + j) =
      (decimalDigits (s.getV x))[j] := fun j hj => byteAt_storeBytes_add hm (by omega) hj
  refine ⟨_, exec_ldB_of_le x hi, ?_, ?_, ?_, fun a ha => byteAt_storeBytes_outside hm (by omega) (by omega), fun _ => rfl,
    rfl, rfl, ⟨rfl, fun _ => rfl⟩, ⟨rfl, rfl⟩, fun _ _ => rfl, ⟨fun _ => rfl, rfl⟩, rfl, rfl⟩
  · exact (congrArg BitVec.toNat (hbyte 0 (by omega))).trans (Nat.mod_eq_of_lt (by omega))
  · exact (congrArg BitVec.toNat (hbyte 1 (by omega))).trans (Nat.mod_eq_of_lt (by omega))
  · exact (congrArg BitVec.toNat (hbyte 2 (by omega))).trans (Nat.mod_eq_of_lt (by omega))

/-- Settles O45: the stored bytes are the registers in order. -/
theorem registersAreStoredInclusively : Obligations.RegistersAreStoredInclusively := by
  intro x s hm hi
  have hlen := regsUpTo_length s x
  exact ⟨_, exec_stRegs_of_le hi, fun r hr => byteAt_stored_register hm hi hr,
    fun a ha => byteAt_storeBytes_outside hm (by omega) (by omega), fun _ => rfl, rfl, rfl, ⟨rfl, fun _ => rfl⟩, ⟨rfl, rfl⟩,
    fun _ _ => rfl, ⟨fun _ => rfl, rfl⟩, rfl, rfl⟩

/-- Settles O46: the loaded registers are the bytes in order, and `loadV` writes registers only. -/
theorem registersAreLoadedInclusively : Obligations.RegistersAreLoadedInclusively := by
  intro x s hi
  have hlen : (s.bytesAt s.i.toNat (x.val + 1)).length = x.val + 1 := Memory.readBytes_length _ _ _
  refine ⟨_, exec_ldRegs_of_le hi, fun r hr => getV_loaded_register s hr, fun r hr => ?_, ?_⟩
  · rw [State.getV_loadV, dif_neg (by omega)]
  · rw [State.loadV_frame]
    exact ⟨rfl, keepsRest_of_frame rfl, rfl, rfl⟩

/-- Settles O47: the load reads back the bytes the store wrote. -/
theorem storeThenLoadRestoresRegisters : Obligations.StoreThenLoadRestoresRegisters := by
  intro x s u hm hi
  refine ⟨_, exec_stRegs_of_le hi, fun hmem hui => ⟨_, exec_ldRegs_of_le (hui ▸ hi), fun r hr => ?_⟩⟩
  rw [getV_loaded_register u hr, hui, State.byteAt, hmem]
  exact byteAt_stored_register hm hi hr

/-- Settles O48: the fetch after the store joins the two stored registers. -/
theorem aStoreIsSeenByTheNextFetch : Obligations.AStoreIsSeenByTheNextFetch := by
  intro x j k s i hm hrun hi hk hkx hpc hd
  refine ⟨_, exec_stRegs_of_le hi, ?_⟩
  have hword : (s.storeBytes s.i.toNat (s.regsUpTo x)).wordAt s.pc.toNat = joinBytes (s.getV j) (s.getV k) := by
    have hnext : s.pc.toNat + 1 = s.i.toNat + k.val := by omega
    rw [State.wordAt, hnext, hpc, byteAt_stored_register hm hi (by omega), byteAt_stored_register hm hi hkx]
  have hrun' : (s.storeBytes s.i.toNat (s.regsUpTo x)).run = .running := hrun
  rw [step_running hrun', runCycle_of_instr (by rw [State.storeBytes_pc]; omega) (by rw [State.storeBytes_pc, hword, hd])]
  rfl

/-- Settles O49: each checks its whole span before its first access. -/
theorem accessBeyondMemoryHalts : Obligations.AccessBeyondMemoryHalts := fun x y n s =>
  ⟨fun hn hi => withAccess_of_lt .read _ n.val s _ hn (by omega),
    fun hi => withAccess_of_lt .write _ 3 s _ (by omega) (by omega),
    fun hi => withAccess_of_lt .write _ (x.val + 1) s _ (by omega) (by omega),
    fun hi => withAccess_of_lt .read _ (x.val + 1) s _ (by omega) (by omega)⟩

end Sys2Proof.Machine
end

section
/-! PROOFS for spec/44_timer_input.md: the timers, the key skips and the key wait. -/

namespace Sys2Proof

@[simp] theorem decode_ldVxDT (x : Reg) : decode (wordXKK 0xF#4 x 0x07#8) = .instr (.ldVxDT x) :=
  decode_encode (.ldVxDT x)

@[simp] theorem decode_ldDTVx (x : Reg) : decode (wordXKK 0xF#4 x 0x15#8) = .instr (.ldDTVx x) :=
  decode_encode (.ldDTVx x)

@[simp] theorem decode_ldSTVx (x : Reg) : decode (wordXKK 0xF#4 x 0x18#8) = .instr (.ldSTVx x) :=
  decode_encode (.ldSTVx x)

end Sys2Proof

namespace Sys2Proof.Machine

/-! ### The timers -/

theorem soundActive_iff (s : State) : s.soundActive = true ↔ s.st ≠ 0#8 := by
  simp [State.soundActive]

/-- Settles O50: each of the three writes one element. -/
theorem timerInstructionsMoveTheTimers : Obligations.TimerInstructionsMoveTheTimers := by
  intro x s
  refine ⟨decode_ldVxDT x, decode_ldDTVx x, decode_ldSTVx x,
    ⟨_, rfl, State.getV_setV_self s x s.dt, onlyRegChanges_setV s x s.dt⟩, ⟨_, rfl, rfl, rfl, ?_⟩,
    ⟨_, rfl, rfl, soundActive_iff _, rfl, ?_⟩⟩
  all_goals
    exact ⟨fun _ => rfl, rfl, rfl, ⟨rfl, fun _ => rfl⟩, fun _ => rfl, fun _ _ => rfl, ⟨fun _ => rfl, rfl⟩, rfl, rfl⟩

/-- Settles O51: `tick` writes the two timers, each by `tickTimer`. -/
theorem tickCountsEachTimerDownToZero : Obligations.TickCountsEachTimerDownToZero := by
  intro s
  have hsound : (tick s).soundActive = true ↔ 1 < s.st.toNat := by
    have hst : (tick s).st.toNat = s.st.toNat - 1 := tickTimer_toNat s.st
    rw [soundActive_iff]
    bv_omega
  exact ⟨tickTimer_toNat s.dt, tickTimer_toNat s.st, hsound, fun _ => rfl, rfl, rfl, ⟨rfl, fun _ => rfl⟩, fun _ => rfl,
    fun _ _ => rfl, ⟨fun _ => rfl, rfl⟩, rfl, rfl⟩

/-! ### The current key -/

theorem keyByte_toNat (k : Key) : (keyByte k).toNat = k.val := by
  rw [keyByte, BitVec.toNat_ofNat]
  omega

theorem keyIs_some_iff (k : Key) (v : Byte) : keyIs (some k) v = true ↔ v.toNat = k.val := by
  rw [keyIs, beq_iff_eq, ← BitVec.toNat_inj, keyByte_toNat, eq_comm]

theorem currentKey_of_none {s : State} (h : ∀ k, s.held.get k = false) : s.currentKey = (none, s) := by
  rcases s.currentKey_cases with ⟨-, hk⟩ | ⟨k, hk, -⟩
  · exact hk
  · rw [h k] at hk
    cases hk

theorem currentKey_of_held {s : State} (h : ∃ k, s.held.get k = true) :
    ∃ k, s.held.get k = true ∧ s.currentKey = (some k, { s with keyDraws := s.keyDraws + 1 }) := by
  refine s.currentKey_cases.resolve_left ?_
  rintro ⟨hno, -⟩
  obtain ⟨k, hk⟩ := h
  rw [hno k] at hk
  cases hk

theorem exec_skp_eq {s t : State} {k : Option Key} (h : s.currentKey = (k, t)) (x : Reg) :
    exec (.skp x) s = .next (t.skipIf (keyIs k (s.getV x))) := by
  show execSkp x s = _
  rw [execSkp, h]

theorem exec_sknp_eq {s t : State} {k : Option Key} (h : s.currentKey = (k, t)) (x : Reg) :
    exec (.sknp x) s = .next (t.skipIf (!keyIs k (s.getV x))) := by
  show execSknp x s = _
  rw [execSknp, h]

/-- A skip after a query that counted a draw (log 7). -/
theorem skipIf_keyDraws_frame (s : State) (n : Nat) (c : Bool) :
    KeepsRegs s (({ s with keyDraws := n } : State).skipIf c) ∧ KeepsRest s (({ s with keyDraws := n } : State).skipIf c) ∧
      (({ s with keyDraws := n } : State).skipIf c).rngDraws = s.rngDraws := by
  rw [State.skipIf_eq]
  exact ⟨fun _ => rfl, keepsRest_of_frame rfl, rfl⟩

/-- Settles O53: both skips compare `V[x]` with the key of the one query. -/
theorem keySkipsAskTheCurrentKey : Obligations.KeySkipsAskTheCurrentKey := by
  intro x s
  refine ⟨fun hno => ?_, fun hheld => ?_⟩
  · have hk := currentKey_of_none hno
    exact ⟨⟨_, exec_skp_eq hk x, rfl, onlyPcChanges_skipIf s _⟩, ⟨_, exec_sknp_eq hk x, rfl, onlyPcChanges_skipIf s _⟩⟩
  · obtain ⟨k, hheldk, hk⟩ := currentKey_of_held hheld
    refine ⟨k, hheldk, ⟨_, exec_skp_eq hk x, ?_, skipIf_keyDraws_frame s _ _⟩,
      ⟨_, exec_sknp_eq hk x, ?_, skipIf_keyDraws_frame s _ _⟩⟩
    · simp [State.skipIf_eq, keyIs_some_iff]
    · by_cases hv : (s.getV x).toNat = k.val <;> simp [State.skipIf_eq, keyIs_some_iff, hv]

/-- Settles O54: a held key is one `setV`, and with none held only `run` is written. -/
theorem keyWaitTakesAHeldKeyOrAwaits : Obligations.KeyWaitTakesAHeldKeyOrAwaits := by
  intro x s
  refine ⟨fun hheld => ?_, fun hno => ?_⟩
  · obtain ⟨k, hheldk, hk⟩ := currentKey_of_held hheld
    have hexec : exec (.ldVxK x) s = .next (({ s with keyDraws := s.keyDraws + 1 } : State).setV x (keyByte k)) := by
      show execLdVxK x s = _
      rw [execLdVxK, hk]
    refine ⟨_, k, hexec, hheldk, ?_, fun r hr => State.getV_setV_of_ne _ hr _, rfl, keepsRest_of_frame rfl, rfl⟩
    rw [State.getV_setV_self, keyByte_toNat]
  · show execLdVxK x s = _
    rw [execLdVxK, currentKey_of_none hno]
    rfl

theorem step_awaiting_of_none {x : Reg} {s : State} (hrun : s.run = .awaitingKey x) (hno : ∀ k, s.held.get k = false) :
    step s = .next s := by
  rw [step_awaiting hrun, pollKey, currentKey_of_none hno]

theorem step_awaiting_of_held {x : Reg} {s : State} (hrun : s.run = .awaitingKey x) (hheld : ∃ k, s.held.get k = true) :
    ∃ k, s.held.get k = true ∧
      step s = .next ((({ s with keyDraws := s.keyDraws + 1 } : State).setV x (keyByte k)).setRun .running) := by
  obtain ⟨k, hheldk, hk⟩ := currentKey_of_held hheld
  exact ⟨k, hheldk, by rw [step_awaiting hrun, pollKey, hk]⟩

/-- Settles O55: a poll is the identity with no key held, and else one `setV` that leaves the wait. -/
theorem awaitingStepPollsForAKey : Obligations.AwaitingStepPollsForAKey := by
  intro x k s hrun
  refine ⟨fun hno => ⟨step_awaiting_of_none hrun hno, by rw [State.report, hrun]⟩, fun hheld => ?_, ?_⟩
  · obtain ⟨j, hheldj, hstep⟩ := step_awaiting_of_held hrun hheld
    refine ⟨_, j, hstep, rfl, hheldj, ?_, fun r hr => State.getV_setV_of_ne _ hr _, rfl, rfl, ⟨rfl, fun _ => rfl⟩,
      ⟨rfl, rfl⟩, fun _ => rfl, fun _ _ => rfl, fun _ => rfl, rfl⟩
    rw [State.getV_setRun, State.getV_setV_self, keyByte_toNat]
  · have hpressed : (setKeyState k true s).run = .awaitingKey x := hrun
    obtain ⟨j, -, hstep⟩ := step_awaiting_of_held hpressed ⟨k, get_held_setKeyState_self k true s⟩
    exact ⟨_, hstep, rfl⟩

end Sys2Proof.Machine
end

section
/-! PROOFS for spec/70_reset_and_hazards.md: loading a ROM, the reset state, and a word placed where the block fetches. -/

namespace Sys2Proof.Machine

/-! ### A load that succeeds (R340) -/

theorem initialised_initialState {p : InitParams} (hp : p.memory.wf = true) {rom : List Byte} (hrom : rom.length ≤ 3584)
    (m n : Nat) : Initialised p rom (initialState p rom m n) := by
  have hread : ∀ a, (initialState p rom m n).byteAt a = _ := initMemory_read p rom hp hrom
  have hzero : ∀ r, (initialState p rom m n).getV r = 0#8 := fun r => by
    simp [State.getV, initialState, Vector.get_eq_getElem]
  have hstack : ∀ k, (initialState p rom m n).stack.get k = 0#16 := fun k => by
    simp [initialState, Vector.get_eq_getElem]
  have hheld : ∀ k, (initialState p rom m n).held.get k = false := fun k => by
    simp [initialState, Vector.get_eq_getElem]
  refine ⟨hzero, rfl, rfl, rfl, hstack, rfl, rfl, fun a => ?_, fun a ha => ?_, fun a ha => ?_, rfl, hheld, rfl⟩
  · rw [hread, dif_pos a.isLt]
    rfl
  · rw [hread, dif_neg (by omega), if_pos (by omega), Nat.add_sub_cancel_left, List.getD_eq_getElem _ _ ha]
  · rw [hread, dif_neg (by omega), if_neg (by omega)]

/-- Settles O56: each load within the limit is `initialState`, which differs only in the draw counters it keeps. -/
theorem initializeSetsEveryElement : Obligations.InitializeSetsEveryElement := by
  intro p rom s earlier hp hrom
  have hnone := loadFault_of_le hrom
  have hload : initialise p (.bytes rom) s = initialState p rom s.rngDraws s.keyDraws := initialise_of_none hnone
  have hfirst : Block.perform (.initialise p (.bytes rom)) (.unloaded earlier) =
      .next (.live (initialState p rom 0 0), some .ok) := by
    rw [Block.perform, performLoad, hnone]
    rfl
  rw [Block.perform, hload]
  refine ⟨initialised_initialState hp hrom _ _, rfl, _, hfirst, initialised_initialState hp hrom 0 0, fun hrng hkey => ?_⟩
  rw [hrng, hkey]
  rfl

/-! ### A load that fails (R341) -/

theorem loadFails_of_loadFault {p : InitParams} {rom : RomImage} {f : Fault} (h : loadFault rom = some f) (s : State)
    (earlier : Option Fault) : LoadFails p rom f s earlier := by
  have hload : initialise p rom s = { s with run := .halted f } := initialise_of_some h
  refine ⟨hload, ?_, rfl, ?_⟩
  · rw [Block.perform, hload]
    rfl
  · rw [Block.perform, performLoad, h]

/-- Settles O57: the load's fault is found before anything is written. -/
theorem failedLoadHaltsAndLoadsNothing : Obligations.FailedLoadHaltsAndLoadsNothing :=
  fun _ _ _ s earlier _ _ =>
    ⟨fun hrom => loadFails_of_loadFault (loadFault_of_lt hrom) s earlier, loadFails_of_loadFault rfl s earlier, fun _ => rfl,
      rfl, rfl, rfl⟩

/-! ### The reset state -/

/-- Storing what the addresses read as when unlisted lists no cell. -/
theorem writeBytes_nil_of_unlisted (bs : List Byte) :
    ∀ a, (∀ j (h : j < bs.length), bs[j] = unlistedByte (a + j)) → Memory.writeBytes [] a bs = [] := by
  induction bs with
  | nil => exact fun _ _ => rfl
  | cons b bs ih =>
    intro a h
    have hb : b = unlistedByte a := h 0 (by simp)
    have hwrite : Memory.write [] a b = [] := by simp [Memory.write, Memory.put, hb]
    rw [Memory.writeBytes, hwrite]
    refine ih (a + 1) fun j hj => ?_
    rw [Nat.add_assoc, Nat.add_comm 1 j]
    exact h (j + 1) (by simpa using hj)

/-- The first 80 unlisted bytes are the default font (log 5). -/
theorem initMemory_default : initMemory InitParams.default [] = [] := by
  refine writeBytes_nil_of_unlisted _ 0 fun j _ => ?_
  simp [InitParams.default, unlistedByte]

/-- Settles O58: with the default parameters and no ROM byte, no cell differs from its unlisted byte. -/
theorem resetIsInitializeWithAnEmptyRom : Obligations.ResetIsInitializeWithAnEmptyRom := by
  refine ⟨fun s hrng hkey => ?_, fun r => ?_, rfl, rfl, rfl, fun k => ?_, rfl, rfl, rfl⟩
  · rw [initialise_of_none (loadFault_of_le (by simp)), hrng, hkey, initialState, RomImage.contents, initMemory_default]
    rfl
  · simp [State.getV, State.reset, Vector.get_eq_getElem]
  · simp [State.reset, Vector.get_eq_getElem]

/-! ### Placing a word (log 10) -/

/-- Settles O59: the placed word is the word the next fetch reads, and it decodes to `i`. -/
theorem placedWordIsTheNextInstruction : Obligations.PlacedWordIsTheNextInstruction := by
  intro i s hm
  rw [State.withFetchWord, tableWord_toNat]
  refine ⟨?_, fun hpc => ?_⟩
  · have hd : decode ((placeWord s (encode i)).wordAt (placeWord s (encode i)).pc.toNat) = .instr i := by
      rw [placeWord_wordAt s (encode i) hm, decode_encode]
    exact (step_running (placeWord_run s _)).trans (runCycle_of_instr (placeWord_pc_le s _) hd)
  · rw [placeWord_pc, if_neg (by omega)]

end Sys2Proof.Machine
end

section
/-! PROOFS for spec/42_display.md: a draw as the list of cells its set bits land on, in the order of the pixel loop. -/

namespace Sys2Proof.Machine

/-! ### The cells a sprite lands on -/

/-- Set pixels plotted one after the other (R172). -/
def Canvas.plotAll (c : Canvas) (ts : List (Fin 64 × Fin 32)) : Canvas := ts.foldl (fun c t => c.plot (some t)) c

/-- The cells the set bits of one sprite row land on, column by column (R170, R172). -/
def columnTargets (policy : EdgePolicy) (cx py : Nat) (bits : Byte) (cs : List Nat) : List (Fin 64 × Fin 32) :=
  cs.filterMap fun c => if bits.getLsbD (7 - c) then place policy (cx + c) py else none

/-- The eight columns of a sprite row. -/
def spriteColumns : List Nat := [0, 1, 2, 3, 4, 5, 6, 7]

theorem mem_spriteColumns {c : Nat} : c ∈ spriteColumns ↔ c < 8 := by
  simp only [spriteColumns, List.mem_cons, List.not_mem_nil, or_false]
  omega

/-- The cells the set bits of a sprite land on, row by row. -/
def spriteTargets (policy : EdgePolicy) (cx : Nat) : Nat → List Byte → List (Fin 64 × Fin 32)
  | _, [] => []
  | py, b :: bs => columnTargets policy cx py b spriteColumns ++ spriteTargets policy cx (py + 1) bs

theorem drawColumns_eq_plotAll (policy : EdgePolicy) (cx py : Nat) (bits : Byte) (cs : List Nat) :
    ∀ c, drawColumns policy cx py bits cs c = c.plotAll (columnTargets policy cx py bits cs) := by
  induction cs with
  | nil => exact fun _ => rfl
  | cons k cs ih =>
    intro c
    rw [drawColumns, ih, columnTargets, columnTargets, List.filterMap_cons]
    by_cases hbit : bits.getLsbD (7 - k) = true
    · cases hp : place policy (cx + k) py <;> simp [hbit, Canvas.plot, Canvas.plotAll]
    · simp [hbit]

theorem drawRows_eq_plotAll (policy : EdgePolicy) (cx : Nat) (bs : List Byte) :
    ∀ py c, drawRows policy cx py bs c = c.plotAll (spriteTargets policy cx py bs) := by
  induction bs with
  | nil => exact fun _ _ => rfl
  | cons b bs ih =>
    intro py c
    rw [drawRows, ih, drawColumns_eq_plotAll, spriteTargets, Canvas.plotAll, Canvas.plotAll, ← List.foldl_append]
    rfl

theorem drawSprite_eq_plotAll (policy : EdgePolicy) (d : Display) (cx cy : Nat) (sprite : List Byte) :
    drawSprite policy d cx cy sprite = Canvas.plotAll ⟨d, false⟩ (spriteTargets policy cx cy sprite) :=
  drawRows_eq_plotAll policy cx sprite cy _

/-! ### What plotting does to a cell and to the flag -/

theorem display_ext {d e : Display} (h : ∀ col row, Display.cell d col row = Display.cell e col row) : d = e := by
  refine Vector.ext fun r hr => BitVec.eq_of_getLsbD_eq fun c hc => ?_
  exact h ⟨c, hc⟩ ⟨r, hr⟩

theorem cell_plot (c : Canvas) (t : Fin 64 × Fin 32) (col : Fin 64) (row : Fin 32) :
    Display.cell (c.plot (some t)).disp col row = (Display.cell c.disp col row ^^ decide ((col, row) = t)) := by
  obtain ⟨a, b⟩ := t
  simp only [Canvas.plot, Display.cell_toggle, Prod.mk.injEq]
  by_cases h : col = a ∧ row = b <;> simp [h]

/-- A cell is flipped as often as it is plotted, so what counts is whether that is odd (R172). -/
theorem cell_plotAll (ts : List (Fin 64 × Fin 32)) (col : Fin 64) (row : Fin 32) :
    ∀ c, Display.cell (Canvas.plotAll c ts).disp col row =
      (Display.cell c.disp col row ^^ decide (ts.count (col, row) % 2 = 1)) := by
  induction ts with
  | nil => simp [Canvas.plotAll]
  | cons t ts ih =>
    intro c
    have hstep : Canvas.plotAll c (t :: ts) = Canvas.plotAll (c.plot (some t)) ts := rfl
    rw [hstep, ih, cell_plot, List.count_cons, Bool.xor_assoc]
    congr 1
    by_cases h : (col, row) = t
    · rw [decide_eq_true h, Bool.true_xor, ← decide_not, if_pos (by simp [h])]
      exact decide_eq_decide.mpr (by omega)
    · rw [decide_eq_false h, Bool.false_xor, if_neg (by simp [Ne.symm h]), Nat.add_zero]

theorem cell_plotAll_of_nodup {ts : List (Fin 64 × Fin 32)} (h : ts.Nodup) (c : Canvas) (col : Fin 64) (row : Fin 32) :
    Display.cell (c.plotAll ts).disp col row = (Display.cell c.disp col row ^^ decide ((col, row) ∈ ts)) := by
  rw [cell_plotAll, h.count]
  by_cases hmem : (col, row) ∈ ts <;> simp [hmem]

/-- Where no cell is plotted twice, the hit is that of the cells lit before the draw (R173). -/
theorem hit_plotAll_of_nodup {ts : List (Fin 64 × Fin 32)} (h : ts.Nodup) :
    ∀ c : Canvas, (c.plotAll ts).hit = true ↔ c.hit = true ∨ ∃ t ∈ ts, Display.cell c.disp t.1 t.2 = true := by
  induction ts with
  | nil => simp [Canvas.plotAll]
  | cons t ts ih =>
    intro c
    obtain ⟨hnot, hts⟩ := List.nodup_cons.mp h
    have hstep : Canvas.plotAll c (t :: ts) = Canvas.plotAll (c.plot (some t)) ts := rfl
    have hsame : ∀ u ∈ ts, Display.cell (c.plot (some t)).disp u.1 u.2 = Display.cell c.disp u.1 u.2 := by
      intro u hu
      have hne : u ≠ t := fun e => hnot (e ▸ hu)
      rw [cell_plot]
      simp [hne]
    have hexists : (∃ u ∈ ts, Display.cell (c.plot (some t)).disp u.1 u.2 = true) ↔
        ∃ u ∈ ts, Display.cell c.disp u.1 u.2 = true :=
      exists_congr fun u => and_congr_right fun hu => by rw [hsame u hu]
    rw [hstep, ih hts, hexists, List.exists_mem_cons_iff, ← or_assoc]
    simp [Canvas.plot]

/-! ### Where pixels land -/

theorem place_eq_some_iff (policy : EdgePolicy) (px py : Nat) (col : Fin 64) (row : Fin 32) :
    place policy px py = some (col, row) ↔ Lands policy px py col row := by
  cases policy with
  | wrap => simp [place, Lands, Fin.ext_iff]
  | clip | reject =>
    simp only [place, Lands, Option.dite_none_right_eq_some, Option.some.injEq, Prod.mk.injEq, Fin.ext_iff,
      exists_prop]
    omega

/-- Under every policy a drawn pixel lands on the cell of its coordinates modulo the grid. -/
theorem mod_of_place {policy : EdgePolicy} {px py : Nat} {t : Fin 64 × Fin 32} (h : place policy px py = some t) :
    t.1.val = px % 64 ∧ t.2.val = py % 32 := by
  have hl := (place_eq_some_iff policy px py t.1 t.2).mp h
  cases policy <;> simp only [Lands] at hl <;> omega

theorem mem_columnTargets {policy : EdgePolicy} {cx py : Nat} {bits : Byte} {cs : List Nat} {t : Fin 64 × Fin 32} :
    t ∈ columnTargets policy cx py bits cs ↔ ∃ c ∈ cs, bits.getLsbD (7 - c) = true ∧ place policy (cx + c) py = some t := by
  simp [columnTargets]

theorem mem_spriteTargets {policy : EdgePolicy} {cx : Nat} {bs : List Byte} {t : Fin 64 × Fin 32} :
    ∀ {py : Nat}, t ∈ spriteTargets policy cx py bs ↔
      ∃ r, ∃ h : r < bs.length, t ∈ columnTargets policy cx (py + r) bs[r] spriteColumns := by
  induction bs with
  | nil => simp [spriteTargets]
  | cons b bs ih =>
    intro py
    rw [spriteTargets, List.mem_append, ih]
    constructor
    · rintro (h | ⟨r, hr, h⟩)
      · exact ⟨0, by simp, h⟩
      · exact ⟨r + 1, by simpa using hr, by rwa [Nat.add_assoc, Nat.add_comm 1 r] at h⟩
    · rintro ⟨r, hr, h⟩
      cases r with
      | zero => exact .inl h
      | succ r => exact .inr ⟨r, by simpa using hr, by rwa [Nat.add_assoc, Nat.add_comm 1 r]⟩

theorem nodup_columnTargets (policy : EdgePolicy) (cx py : Nat) (bits : Byte) :
    (columnTargets policy cx py bits spriteColumns).Nodup := by
  have hcols : spriteColumns.Pairwise fun a b => a < b ∧ b < 8 := by decide
  refine List.pairwise_filterMap.mpr (hcols.imp ?_)
  rintro a b ⟨hab, hb⟩ t ht u hu rfl
  simp only [Option.ite_none_right_eq_some] at ht hu
  have h1 := (mod_of_place ht.2).1
  have h2 := (mod_of_place hu.2).1
  omega

/-- Rows fewer than the grid's land on different rows of the display. -/
theorem nodup_spriteTargets (policy : EdgePolicy) (cx : Nat) (bs : List Byte) :
    ∀ py, bs.length ≤ 32 → (spriteTargets policy cx py bs).Nodup := by
  induction bs with
  | nil => exact fun _ _ => List.nodup_nil
  | cons b bs ih =>
    intro py hlen
    rw [List.length_cons] at hlen
    refine List.nodup_append.mpr ⟨nodup_columnTargets policy cx py b, ih (py + 1) (by omega), ?_⟩
    rintro t ht u hu rfl
    obtain ⟨c, -, -, hp⟩ := mem_columnTargets.mp ht
    obtain ⟨r, hr, hrow⟩ := mem_spriteTargets.mp hu
    obtain ⟨c', -, -, hp'⟩ := mem_columnTargets.mp hrow
    have h1 := (mod_of_place hp).2
    have h2 := (mod_of_place hp').2
    omega

end Sys2Proof.Machine
end

section
/-! PROOFS for spec/42_display.md: the datapath form, drawing twice, and the three edge policies. -/

namespace Sys2Proof.Machine

/-! ### The datapath (R178) -/

theorem rowTarget_of_place {policy : EdgePolicy} {px py : Nat} {t : Fin 64 × Fin 32} (h : place policy px py = some t) :
    rowTarget policy py = some t.2 := by
  have hl := (place_eq_some_iff policy px py t.1 t.2).mp h
  cases policy with
  | wrap => simp [rowTarget, Fin.ext_iff, hl.2]
  | clip | reject =>
    obtain ⟨-, hy⟩ := hl
    simp [rowTarget, hy]

theorem getLsbD_one_shiftLeft (a col : Fin 64) : (1#64 <<< a.val).getLsbD col.val = true ↔ a = col := by
  simp only [BitVec.getLsbD_shiftLeft, BitVec.getLsbD_one, Bool.and_eq_true, Bool.not_eq_true', decide_eq_true_eq,
    decide_eq_false_iff_not]
  omega

/-- A bit of the row mask is set where a set sprite bit lands on its cell. -/
theorem getLsbD_rowMask {policy : EdgePolicy} {py : Nat} {row : Fin 32} (hrow : rowTarget policy py = some row)
    (cx : Nat) (bits : Byte) (col : Fin 64) (cs : List Nat) :
    (rowMask policy cx py bits cs).getLsbD col.val = true ↔ (col, row) ∈ columnTargets policy cx py bits cs := by
  induction cs with
  | nil => simp [rowMask, columnTargets]
  | cons c cs ih =>
    rw [mem_columnTargets] at ih ⊢
    rw [List.exists_mem_cons_iff, ← ih, rowMask]
    cases hp : place policy (cx + c) py with
    | none => simp
    | some t =>
      obtain ⟨a, b⟩ := t
      have hb : b = row := Option.some.inj ((rowTarget_of_place hp).symm.trans hrow)
      by_cases hbit : bits.getLsbD (7 - c) = true
      · simp only [hbit, if_true, BitVec.getLsbD_or, Bool.or_eq_true, getLsbD_one_shiftLeft, hb, Option.some.injEq,
          Prod.mk.injEq, and_true, true_and]
        exact or_comm
      · simp [hbit]

/-- One row of the datapath: `new_row = old_row XOR m` and `hit = ((old_row AND m) != 0)`. -/
def compositeRow (policy : EdgePolicy) (cx py : Nat) (b : Byte) (c : Canvas) : Canvas :=
  match rowTarget policy py with
  | none => c
  | some row =>
    ⟨c.disp.set row.val (c.disp.get row ^^^ rowMask policy cx py b spriteColumns) row.isLt,
      c.hit || (c.disp.get row &&& rowMask policy cx py b spriteColumns) != 0#64⟩

theorem compositeRows_cons (policy : EdgePolicy) (cx py : Nat) (b : Byte) (bs : List Byte) (c : Canvas) :
    compositeRows policy cx py (b :: bs) c = compositeRows policy cx (py + 1) bs (compositeRow policy cx py b c) := rfl

theorem cell_set_row (d : Display) (row r : Fin 32) (w : BitVec 64) (col : Fin 64) :
    Display.cell (d.set row.val w row.isLt) col r = if r = row then w.getLsbD col.val else Display.cell d col r := by
  simp only [Display.cell, Vector.get_eq_getElem, Vector.getElem_set, Fin.ext_iff, @eq_comm _ r.val]
  split <;> rfl

theorem ne_zero_iff_exists_bit {n : Nat} (w : BitVec n) : w ≠ 0#n ↔ ∃ k, k < n ∧ w.getLsbD k = true := by
  constructor
  · intro h
    by_contra hno
    refine h (BitVec.eq_of_getLsbD_eq fun k hk => ?_)
    have hk' : ¬ w.getLsbD k = true := fun e => hno ⟨k, hk, e⟩
    simpa using hk'
  · rintro ⟨k, -, hk⟩ rfl
    simp at hk

theorem rowTarget_of_mem {policy : EdgePolicy} {cx py : Nat} {bits : Byte} {cs : List Nat} {t : Fin 64 × Fin 32}
    (h : t ∈ columnTargets policy cx py bits cs) : rowTarget policy py = some t.2 := by
  obtain ⟨c, -, -, hp⟩ := mem_columnTargets.mp h
  exact rowTarget_of_place hp

theorem columnTargets_eq_nil {policy : EdgePolicy} {py : Nat} (hrow : rowTarget policy py = none) (cx : Nat) (bits : Byte)
    (cs : List Nat) : columnTargets policy cx py bits cs = [] :=
  List.eq_nil_iff_forall_not_mem.mpr fun t ht => by simp [rowTarget_of_mem ht] at hrow

/-- XOR with the row mask flips the cells the row's pixels land on, each once. -/
theorem set_row_xor_rowMask {policy : EdgePolicy} {py : Nat} {row : Fin 32} (hrow : rowTarget policy py = some row)
    (cx : Nat) (b : Byte) (c : Canvas) :
    c.disp.set row.val (c.disp.get row ^^^ rowMask policy cx py b spriteColumns) row.isLt =
      (c.plotAll (columnTargets policy cx py b spriteColumns)).disp := by
  refine display_ext fun col r => ?_
  rw [cell_plotAll_of_nodup (nodup_columnTargets policy cx py b), cell_set_row]
  by_cases hr : r = row
  · subst hr
    have hbit : (rowMask policy cx py b spriteColumns).getLsbD col.val =
        decide ((col, r) ∈ columnTargets policy cx py b spriteColumns) :=
      Bool.eq_iff_iff.mpr ((getLsbD_rowMask hrow cx b col spriteColumns).trans decide_eq_true_iff.symm)
    rw [if_pos rfl, BitVec.getLsbD_xor, hbit]
    rfl
  · have hnot : (col, r) ∉ columnTargets policy cx py b spriteColumns := fun ht =>
      hr (Option.some.inj ((rowTarget_of_mem ht).symm.trans hrow))
    rw [if_neg hr, decide_eq_false hnot, Bool.xor_false]

/-- AND with the row mask leaves a bit exactly if a pixel lands on a lit cell. -/
theorem row_and_rowMask_ne_zero {policy : EdgePolicy} {py : Nat} {row : Fin 32} (hrow : rowTarget policy py = some row)
    (cx : Nat) (b : Byte) (c : Canvas) :
    (c.hit || (c.disp.get row &&& rowMask policy cx py b spriteColumns) != 0#64) =
      (c.plotAll (columnTargets policy cx py b spriteColumns)).hit := by
  have hmask := getLsbD_rowMask hrow cx b
  rw [Bool.eq_iff_iff, hit_plotAll_of_nodup (nodup_columnTargets policy cx py b), Bool.or_eq_true, bne_iff_ne,
    ne_zero_iff_exists_bit]
  refine or_congr_right ⟨fun ⟨k, hk, h⟩ => ?_, fun ⟨t, ht, h⟩ => ⟨t.1.val, t.1.isLt, ?_⟩⟩
  · rw [BitVec.getLsbD_and, Bool.and_eq_true] at h
    exact ⟨(⟨k, hk⟩, row), (hmask ⟨k, hk⟩ _).mp h.2, h.1⟩
  · obtain rfl : t.2 = row := Option.some.inj ((rowTarget_of_mem ht).symm.trans hrow)
    rw [BitVec.getLsbD_and, Bool.and_eq_true]
    exact ⟨h, (hmask t.1 _).mpr ht⟩

theorem compositeRow_eq_drawColumns (policy : EdgePolicy) (cx py : Nat) (b : Byte) (c : Canvas) :
    compositeRow policy cx py b c = drawColumns policy cx py b spriteColumns c := by
  rw [drawColumns_eq_plotAll]
  unfold compositeRow
  cases hrow : rowTarget policy py with
  | none =>
    rw [columnTargets_eq_nil hrow]
    rfl
  | some row => exact congrArg₂ Canvas.mk (set_row_xor_rowMask hrow cx b c) (row_and_rowMask_ne_zero hrow cx b c)

theorem compositeRows_eq_drawRows (policy : EdgePolicy) (cx : Nat) (bs : List Byte) :
    ∀ py c, compositeRows policy cx py bs c = drawRows policy cx py bs c := by
  induction bs with
  | nil => exact fun _ _ => rfl
  | cons b bs ih =>
    intro py c
    rw [compositeRows_cons, compositeRow_eq_drawColumns, ih]
    rfl

/-- Settles O38: row by row, since a row's eight pixels land on different cells of one display row. -/
theorem datapathEqualsThePixelLoop : Obligations.DatapathEqualsThePixelLoop :=
  fun policy d cx cy sprite => compositeRows_eq_drawRows policy cx sprite cy ⟨d, false⟩

/-! ### Drawing twice -/

theorem drawSprite_disp_involutive (policy : EdgePolicy) (d : Display) (cx cy : Nat) (sprite : List Byte) :
    (drawSprite policy (drawSprite policy d cx cy sprite).disp cx cy sprite).disp = d := by
  refine display_ext fun col row => ?_
  rw [drawSprite_eq_plotAll, cell_plotAll, drawSprite_eq_plotAll, cell_plotAll, Bool.xor_assoc, Bool.xor_self,
    Bool.xor_false]

theorem cell_drawSprite (policy : EdgePolicy) (d : Display) (cx cy : Nat) {sprite : List Byte} (h : sprite.length ≤ 32)
    (col : Fin 64) (row : Fin 32) :
    Display.cell (drawSprite policy d cx cy sprite).disp col row =
      (Display.cell d col row ^^ decide ((col, row) ∈ spriteTargets policy cx cy sprite)) := by
  rw [drawSprite_eq_plotAll, cell_plotAll_of_nodup (nodup_spriteTargets policy cx sprite cy h)]

theorem hit_drawSprite_iff (policy : EdgePolicy) (d : Display) (cx cy : Nat) {sprite : List Byte} (h : sprite.length ≤ 32) :
    (drawSprite policy d cx cy sprite).hit = true ↔
      ∃ t ∈ spriteTargets policy cx cy sprite, Display.cell d t.1 t.2 = true := by
  rw [drawSprite_eq_plotAll, hit_plotAll_of_nodup (nodup_spriteTargets policy cx sprite cy h)]
  simp

/-- Under wrap every set bit lands somewhere. -/
theorem exists_mem_spriteTargets_wrap_iff (cx cy : Nat) (sprite : List Byte) :
    (∃ t, t ∈ spriteTargets .wrap cx cy sprite) ↔ ∃ b ∈ sprite, b ≠ 0#8 := by
  constructor
  · rintro ⟨t, ht⟩
    obtain ⟨r, hr, hrow⟩ := mem_spriteTargets.mp ht
    obtain ⟨c, -, hbit, -⟩ := mem_columnTargets.mp hrow
    exact ⟨sprite[r], List.getElem_mem hr, fun h0 => by simp [h0] at hbit⟩
  · rintro ⟨b, hb, hne⟩
    obtain ⟨r, hr, rfl⟩ := List.mem_iff_getElem.mp hb
    obtain ⟨k, hk, hbit⟩ := (ne_zero_iff_exists_bit _).mp hne
    have hcol : 7 - (7 - k) = k := by omega
    exact ⟨_, mem_spriteTargets.mpr ⟨r, hr, mem_columnTargets.mpr
      ⟨7 - k, mem_spriteColumns.mpr (by omega), by rwa [hcol], rfl⟩⟩⟩

/-- Settles O39: a cell plotted once more is as it was; the second draw's hits are the first draw's cells. -/
theorem drawingTwiceRestoresTheDisplay : Obligations.DrawingTwiceRestoresTheDisplay := by
  intro policy d cx cy sprite
  refine ⟨drawSprite_disp_involutive policy d cx cy sprite, fun hlen => ⟨?_, ?_⟩⟩
  · rw [← Bool.not_eq_true, hit_drawSprite_iff .wrap _ cx cy (by omega)]
    simp
  · rw [hit_drawSprite_iff .wrap _ cx cy (by omega), ← exists_mem_spriteTargets_wrap_iff cx cy]
    refine exists_congr fun t => and_iff_left_of_imp fun ht => ?_
    rw [cell_drawSprite .wrap _ cx cy (by omega), blankDisplay_cell, Bool.false_xor]
    exact decide_eq_true ht

/-! ### A draw of the machine -/

/-- The state after a draw that neither overruns nor is rejected (R172). -/
def State.drawn (policy : EdgePolicy) (x y : Reg) (n : Rows) (s : State) : State :=
  let c := drawSprite policy s.disp (s.getV x).toNat (s.getV y).toNat (s.bytesAt s.i.toNat n.val)
  (s.setDisp c.disp).setV regF (collisionFlag c.hit)

theorem drawWith_of_not_rejects {policy : EdgePolicy} {x y : Reg} {n : Rows} {s : State}
    (h : rejects policy (s.getV x).toNat (s.getV y).toNat n.val = false) :
    drawWith policy x y n s = withAccess .read s.i.toNat n.val s (.next (s.drawn policy x y n)) := by
  rw [drawWith, h]
  rfl

theorem drawWith_of_le {policy : EdgePolicy} {x y : Reg} {n : Rows} {s : State}
    (hn : n.val = 0 ∨ s.i.toNat + n.val ≤ 0x1000) (h : rejects policy (s.getV x).toNat (s.getV y).toNat n.val = false) :
    drawWith policy x y n s = .next (s.drawn policy x y n) := by
  rw [drawWith_of_not_rejects h, withAccess_of_le _ _ _ _ _ hn]

theorem spriteCovers_iff (policy : EdgePolicy) (s : State) (cx cy n : Nat) (col : Fin 64) (row : Fin 32) :
    SpriteCovers policy s cx cy n col row ↔ (col, row) ∈ spriteTargets policy cx cy (s.bytesAt s.i.toNat n) := by
  have hlen : (s.bytesAt s.i.toNat n).length = n := Memory.readBytes_length _ _ _
  have hbyte : ∀ r (hr : r < (s.bytesAt s.i.toNat n).length), (s.bytesAt s.i.toNat n)[r] = s.byteAt (s.i.toNat + r) :=
    fun r hr => Memory.readBytes_getElem s.mem n _ r hr
  simp only [SpriteCovers, mem_spriteTargets, mem_columnTargets, mem_spriteColumns, place_eq_some_iff, hbyte, hlen,
    exists_prop]

/-- The draw flips the covered cells, and `VF` says whether one of them was lit (R172, R173). -/
theorem drawn_drawn (policy : EdgePolicy) (x y : Reg) (n : Rows) (s : State) :
    Drawn policy (s.getV x).toNat (s.getV y).toNat n.val s (s.drawn policy x y n) := by
  have hlen : (s.bytesAt s.i.toNat n.val).length ≤ 32 := by
    have h : (s.bytesAt s.i.toNat n.val).length = n.val := Memory.readBytes_length _ _ _
    omega
  have hflag : (s.drawn policy x y n).getV 15 = flagByte (drawSprite policy s.disp (s.getV x).toNat (s.getV y).toNat
      (s.bytesAt s.i.toNat n.val)).hit := State.getV_setV_self _ _ _
  have hhit : (drawSprite policy s.disp (s.getV x).toNat (s.getV y).toNat (s.bytesAt s.i.toNat n.val)).hit = true ↔
      ∃ col row, s.pixel col row = true ∧ SpriteCovers policy s (s.getV x).toNat (s.getV y).toNat n.val col row := by
    simp only [hit_drawSprite_iff policy _ _ _ hlen, spriteCovers_iff, Prod.exists, State.pixel, and_comm]
  refine ⟨fun col row => ?_, fun h => ?_, fun h => ?_, fun r hr => State.getV_setV_of_ne _ hr _, rfl, rfl,
    ⟨rfl, fun _ => rfl⟩, ⟨rfl, rfl⟩, fun _ => rfl, ⟨fun _ => rfl, rfl⟩, rfl, rfl⟩
  · have hcell := cell_drawSprite policy s.disp (s.getV x).toNat (s.getV y).toNat hlen col row
    rw [spriteCovers_iff]
    show Display.cell (drawSprite policy s.disp _ _ _).disp col row = true ↔ _
    rw [hcell]
    by_cases h : (col, row) ∈ spriteTargets policy (s.getV x).toNat (s.getV y).toNat (s.bytesAt s.i.toNat n.val) <;>
      simp [h, State.pixel]
  · rw [hflag, hhit.mpr h]
    rfl
  · rw [hflag, Bool.not_eq_true _ |>.mp (mt hhit.mp h)]
    rfl

/-- The box check of R176. -/
theorem rejects_iff (policy : EdgePolicy) (cx cy n : Nat) :
    rejects policy cx cy n = true ↔ policy = .reject ∧ n ≠ 0 ∧ (63 < cx + 7 ∨ 31 < cy + n - 1) := by
  simp [rejects]

theorem rejects_of_ne {policy : EdgePolicy} (h : policy ≠ .reject) (cx cy n : Nat) : rejects policy cx cy n = false := by
  rw [← Bool.not_eq_true, rejects_iff]
  exact fun hr => h hr.1

/-- Settles O36: every cell of the blank display is 0. -/
theorem clearTurnsEveryCellOff : Obligations.ClearTurnsEveryCellOff := fun _ =>
  ⟨_, rfl, blankDisplay_cell, fun _ => rfl, rfl, rfl, ⟨rfl, fun _ => rfl⟩, ⟨rfl, rfl⟩, fun _ => rfl, ⟨fun _ => rfl, rfl⟩,
    rfl, rfl⟩

/-- Settles O37: this hardware's policy is wrap, which rejects nothing. -/
theorem drawXorsTheSpriteAndReportsCollision : Obligations.DrawXorsTheSpriteAndReportsCollision := fun x y n s hn =>
  ⟨_, drawWith_of_le hn (rejects_of_ne (by decide) _ _ _), drawn_drawn .wrap x y n s⟩

/-- Settles O40: no pixel of a sprite placed outside the grid lands on a cell. -/
theorem clipDropsPixelsOutsideTheGrid : Obligations.ClipDropsPixelsOutsideTheGrid := by
  intro x y n s hn
  have hdrawn := drawn_drawn .clip x y n s
  refine ⟨_, drawWith_of_le hn (rejects_of_ne (by decide) _ _ _), hdrawn, fun hout => ?_⟩
  obtain ⟨hcells, -, hzero, -⟩ := hdrawn
  have hnone : ∀ col row, ¬ SpriteCovers .clip s (s.getV x).toNat (s.getV y).toNat n.val col row := by
    rintro col row ⟨r, -, c, -, -, hcol, hrow⟩
    omega
  refine ⟨fun col row => ?_, hzero fun ⟨col, row, _, hcover⟩ => hnone col row hcover⟩
  rw [Bool.eq_iff_iff, hcells col row, iff_false_right (hnone col row), not_not]

/-- Inside the grid no policy moves or drops a pixel. -/
theorem place_eq_wrap {policy : EdgePolicy} {px py : Nat} (hx : px < 64) (hy : py < 32) :
    place policy px py = place .wrap px py := by
  have hwrap : place .wrap px py = some (⟨px, hx⟩, ⟨py, hy⟩) := (place_eq_some_iff _ _ _ _ _).mpr
    ⟨Nat.mod_eq_of_lt hx, Nat.mod_eq_of_lt hy⟩
  cases policy with
  | wrap => rfl
  | clip | reject => rw [hwrap, place, dif_pos ⟨hx, hy⟩]

theorem spriteTargets_eq_wrap (policy : EdgePolicy) {cx : Nat} (hx : cx + 7 ≤ 63) (bs : List Byte) :
    ∀ py, py + bs.length ≤ 32 → spriteTargets policy cx py bs = spriteTargets .wrap cx py bs := by
  induction bs with
  | nil => exact fun _ _ => rfl
  | cons b bs ih =>
    intro py hlen
    rw [List.length_cons] at hlen
    have hrow : columnTargets policy cx py b spriteColumns = columnTargets .wrap cx py b spriteColumns :=
      List.filterMap_congr fun c hc => by
        have hc8 := mem_spriteColumns.mp hc
        rw [place_eq_wrap (by omega) (by omega)]
    rw [spriteTargets, spriteTargets, hrow, ih (py + 1) (by omega)]

theorem drawWith_eq_wrap (policy : EdgePolicy) {x y : Reg} {n : Rows} {s : State}
    (hx : (s.getV x).toNat + 7 ≤ 63) (hy : (s.getV y).toNat + n.val - 1 ≤ 31) :
    drawWith policy x y n s = drawWith .wrap x y n s := by
  have hlen : (s.bytesAt s.i.toNat n.val).length = n.val := Memory.readBytes_length _ _ _
  have hrejects : rejects policy (s.getV x).toNat (s.getV y).toNat n.val = false := by
    rw [← Bool.not_eq_true, rejects_iff]
    omega
  have hdrawn : s.drawn policy x y n = s.drawn .wrap x y n := by
    rw [State.drawn, State.drawn, drawSprite_eq_plotAll, drawSprite_eq_plotAll,
      spriteTargets_eq_wrap policy hx _ _ (by omega)]
  rw [drawWith_of_not_rejects hrejects, drawWith_of_not_rejects (rejects_of_ne (by decide) _ _ _), hdrawn]

/-- Settles O41: the overrun check comes first, then the box check, and inside the grid placing is the same. -/
theorem rejectFaultsOrAgreesWithWrap : Obligations.RejectFaultsOrAgreesWithWrap := by
  intro x y n s hn
  refine ⟨fun hi hbox => ?_, fun hx hy => ?_, fun hi policy => withAccess_of_lt .read _ n.val s _ hn hi⟩
  · have hrejects := (rejects_iff .reject (s.getV x).toNat (s.getV y).toNat n.val).mpr ⟨rfl, hn, hbox⟩
    rw [drawWith, withAccess_of_le _ _ _ _ _ (.inr hi), if_pos hrejects]
    rfl
  · exact ⟨drawWith_eq_wrap .reject hx hy, drawWith_eq_wrap .clip hx hy⟩

end Sys2Proof.Machine
end
